-- ==== Sys2Proof/Word.lean ====
section
/-! DEFINITION. The word types of the core (00_scope.md R5, 10_state.md R20): 16-bit words for `pc`, `I`, return
addresses, instruction words and fault information; 8-bit bytes for V registers, timers and memory; register
indices 0 to 15. All quantities are unsigned (R9). -/

namespace Sys2Proof

/-- A 16-bit unsigned word (`PCLEN`, `ILEN`, a stack slot, an instruction word). -/
abbrev Word := BitVec 16

/-- An 8-bit unsigned byte (`VLEN`, `TLEN`, one byte of memory). -/
abbrev Byte := BitVec 8

/-- The 12-bit address field NNN of an instruction word (R70). -/
abbrev Addr12 := BitVec 12

/-- The index of a V register, 0 to 15: the fields X and Y (R70, R72). -/
abbrev RegIx := Fin 16

end Sys2Proof
end

