-- ==== Sys2Proof/Syntax.lean ====
section
/-! DEFINITION. The instruction set: one constructor per row of spec/opcode_table.json, in its order (30_encoding.md
R74). Fields as R70 gives them: X and Y name V registers, NN is an 8-bit immediate, NNN a 12-bit address, N a count. -/

namespace Sys2Proof

/-- The 35 instruction forms of 30_encoding.md R74. The table names a form, the constructor's docstring the rule that
gives its meaning. -/
inductive Instr where
  /-- 0000 NOP (R100) -/
  | nop
  /-- 00E0 CLS (R150) -/
  | cls
  /-- 00EE RET (R101) -/
  | ret
  /-- 1NNN JP nnn (R102) -/
  | jp (nnn : Addr12)
  /-- 2NNN CALL nnn (R103) -/
  | call (nnn : Addr12)
  /-- 3XNN SE Vx, nn (R111) -/
  | seImm (x : RegIx) (nn : Byte)
  /-- 4XNN SNE Vx, nn (R112) -/
  | sneImm (x : RegIx) (nn : Byte)
  /-- 5XY0 SE Vx, Vy (R113) -/
  | seReg (x y : RegIx)
  /-- 6XNN LD Vx, nn (R122) -/
  | ldImm (x : RegIx) (nn : Byte)
  /-- 7XNN ADD Vx, nn (R123) -/
  | addImm (x : RegIx) (nn : Byte)
  /-- 8XY0 LD Vx, Vy (R124) -/
  | ldReg (x y : RegIx)
  /-- 8XY1 OR Vx, Vy (R125) -/
  | or (x y : RegIx)
  /-- 8XY2 AND Vx, Vy (R126) -/
  | and (x y : RegIx)
  /-- 8XY3 XOR Vx, Vy (R127) -/
  | xor (x y : RegIx)
  /-- 8XY4 ADD Vx, Vy (R128) -/
  | addReg (x y : RegIx)
  /-- 8XY5 SUB Vx, Vy (R129) -/
  | sub (x y : RegIx)
  /-- 8XY6 SHR Vx, Vy (R130) -/
  | shr (x y : RegIx)
  /-- 8XY7 SUBN Vx, Vy (R131) -/
  | subn (x y : RegIx)
  /-- 8XYE SHL Vx, Vy (R132) -/
  | shl (x y : RegIx)
  /-- 9XY0 SNE Vx, Vy (R114) -/
  | sneReg (x y : RegIx)
  /-- ANNN LD I, nnn (R140) -/
  | ldI (nnn : Addr12)
  /-- BNNN JP V0, nnn (R104) -/
  | jpV0 (nnn : Addr12)
  /-- CXNN RND Vx, nn (R133) -/
  | rnd (x : RegIx) (nn : Byte)
  /-- DXYN DRW Vx, Vy, n (R151); the row count `n` is 0 to 15, checked by `Instr.wellFormed` -/
  | drw (x y : RegIx) (n : Nat)
  /-- EX9E SKP Vx (R115) -/
  | skp (x : RegIx)
  /-- EXA1 SKNP Vx (R116) -/
  | sknp (x : RegIx)
  /-- FX07 LD Vx, DT (R160) -/
  | ldVxDt (x : RegIx)
  /-- FX0A LD Vx, K (R161) -/
  | ldVxK (x : RegIx)
  /-- FX15 LD DT, Vx (R163) -/
  | ldDtVx (x : RegIx)
  /-- FX18 LD ST, Vx (R164) -/
  | ldStVx (x : RegIx)
  /-- FX1E ADD I, Vx (R141) -/
  | addI (x : RegIx)
  /-- FX29 LD F, Vx (R142) -/
  | ldF (x : RegIx)
  /-- FX33 LD B, Vx (R143) -/
  | ldB (x : RegIx)
  /-- FX55 LD [I], Vx (R144) -/
  | ldMemVx (x : RegIx)
  /-- FX65 LD Vx, [I] (R145) -/
  | ldVxMem (x : RegIx)
  deriving DecidableEq, Repr

end Sys2Proof
end

