-- ==== Sys2Proof/WellFormed.lean ====
section
/-! DEFINITION. Which terms of `Instr` are instructions of the machine. The types of the fields X, Y (register index),
NN (byte) and NNN (12 bits) admit exactly the values the encoding admits (30_encoding.md R72), so the one field
left to check is the row count of DRW. -/

namespace Sys2Proof

/-- 30_encoding.md R72: "N is a count 0 to 15"; there is no 16-row form of DRW (44_display.md R151). Every constructor
is named, so that a new one cannot slip past. -/
def Instr.wellFormed : Instr → Bool
  | .drw _ _ n => n < 16
  | .nop | .cls | .ret => true
  | .jp _ | .call _ | .ldI _ | .jpV0 _ => true
  | .seImm _ _ | .sneImm _ _ | .ldImm _ _ | .addImm _ _ | .rnd _ _ => true
  | .seReg _ _ | .sneReg _ _ | .ldReg _ _ | .or _ _ | .and _ _ | .xor _ _ => true
  | .addReg _ _ | .sub _ _ | .shr _ _ | .subn _ _ | .shl _ _ => true
  | .skp _ | .sknp _ | .ldVxDt _ | .ldVxK _ | .ldDtVx _ | .ldStVx _ => true
  | .addI _ | .ldF _ | .ldB _ | .ldMemVx _ | .ldVxMem _ => true

/-- `i` is an instruction of the machine. -/
abbrev Instr.WellFormed (i : Instr) : Prop := i.wellFormed = true

end Sys2Proof
end

