-- ==== Sys2Proof/Decode.lean ====
section
/-! DEFINITION. Decode (30_encoding.md R70, R74, R75) and, after it, the opcode map as mask and match and the encoder
(R82). Decoding dispatches on the nibbles; the encoder is written from the match column, so that the two are
separate readings of the spec. -/

namespace Sys2Proof

/-- Why bytes decode to no instruction. -/
inductive Reject where
  /-- Fewer than two bytes stand there (R70: every instruction is exactly two bytes). -/
  | truncated
  /-- The word matches none of the 35 forms (R75): the machine raises `Fault(ILLEGAL_INSTRUCTION, ir)`. -/
  | illegal (ir : Word)
  deriving DecidableEq, Repr

/-! ### The fields of the instruction word (R70) -/

/-- nibble1, `ir[15:12]`: the major opcode. -/
def nibble1 (ir : Word) : BitVec 4 := ir.extractLsb' 12 4

/-- nibble2, `ir[11:8]`. -/
def nibble2 (ir : Word) : BitVec 4 := ir.extractLsb' 8 4

/-- nibble3, `ir[7:4]`. -/
def nibble3 (ir : Word) : BitVec 4 := ir.extractLsb' 4 4

/-- nibble4, `ir[3:0]`. -/
def nibble4 (ir : Word) : BitVec 4 := ir.extractLsb' 0 4

/-- X, the register index in nibble2. -/
def fieldX (ir : Word) : RegIx := (nibble2 ir).toFin

/-- Y, the register index in nibble3. -/
def fieldY (ir : Word) : RegIx := (nibble3 ir).toFin

/-- N, the count in nibble4. -/
def fieldN (ir : Word) : Nat := (nibble4 ir).toNat

/-- NN, the low byte. -/
def fieldNN (ir : Word) : Byte := ir.extractLsb' 0 8

/-- NNN, the low 12 bits. -/
def fieldNNN (ir : Word) : Addr12 := ir.extractLsb' 0 12

/-! ### Decode -/

/-- nibble1 = 0: the three Z words, every other word with nibble1 = 0 is illegal (R75: no general form 0NNN). -/
def decode0 (ir : Word) : Option Instr :=
  if ir = 0x0000#16 then some .nop
  else if ir = 0x00E0#16 then some .cls
  else if ir = 0x00EE#16 then some .ret
  else none

/-- nibble1 = 5 and nibble1 = 9: only nibble4 = 0 is defined (R75). -/
def decodeRegPair (ir : Word) (i : Instr) : Option Instr :=
  if nibble4 ir = 0x0#4 then some i else none

/-- nibble1 = 8: selected by nibble4 (R74, R75). -/
def decode8 (ir : Word) : Option Instr :=
  if nibble4 ir = 0x0#4 then some (.ldReg (fieldX ir) (fieldY ir))
  else if nibble4 ir = 0x1#4 then some (.or (fieldX ir) (fieldY ir))
  else if nibble4 ir = 0x2#4 then some (.and (fieldX ir) (fieldY ir))
  else if nibble4 ir = 0x3#4 then some (.xor (fieldX ir) (fieldY ir))
  else if nibble4 ir = 0x4#4 then some (.addReg (fieldX ir) (fieldY ir))
  else if nibble4 ir = 0x5#4 then some (.sub (fieldX ir) (fieldY ir))
  else if nibble4 ir = 0x6#4 then some (.shr (fieldX ir) (fieldY ir))
  else if nibble4 ir = 0x7#4 then some (.subn (fieldX ir) (fieldY ir))
  else if nibble4 ir = 0xE#4 then some (.shl (fieldX ir) (fieldY ir))
  else none

/-- nibble1 = E: selected by the low byte (R74, R75). -/
def decodeE (ir : Word) : Option Instr :=
  if fieldNN ir = 0x9E#8 then some (.skp (fieldX ir))
  else if fieldNN ir = 0xA1#8 then some (.sknp (fieldX ir))
  else none

/-- nibble1 = F: selected by the low byte (R74, R75). -/
def decodeF (ir : Word) : Option Instr :=
  if fieldNN ir = 0x07#8 then some (.ldVxDt (fieldX ir))
  else if fieldNN ir = 0x0A#8 then some (.ldVxK (fieldX ir))
  else if fieldNN ir = 0x15#8 then some (.ldDtVx (fieldX ir))
  else if fieldNN ir = 0x18#8 then some (.ldStVx (fieldX ir))
  else if fieldNN ir = 0x1E#8 then some (.addI (fieldX ir))
  else if fieldNN ir = 0x29#8 then some (.ldF (fieldX ir))
  else if fieldNN ir = 0x33#8 then some (.ldB (fieldX ir))
  else if fieldNN ir = 0x55#8 then some (.ldMemVx (fieldX ir))
  else if fieldNN ir = 0x65#8 then some (.ldVxMem (fieldX ir))
  else none

/-- R74: "Dispatch key is the 4-tuple of nibbles." A total function of the instruction word, `none` for an illegal word
(R75); nibble1 is 0 to 15, so the last arm is nibble1 = F. -/
def decodeWord (ir : Word) : Option Instr :=
  match (nibble1 ir).toNat with
  | 0x0 => decode0 ir
  | 0x1 => some (.jp (fieldNNN ir))
  | 0x2 => some (.call (fieldNNN ir))
  | 0x3 => some (.seImm (fieldX ir) (fieldNN ir))
  | 0x4 => some (.sneImm (fieldX ir) (fieldNN ir))
  | 0x5 => decodeRegPair ir (.seReg (fieldX ir) (fieldY ir))
  | 0x6 => some (.ldImm (fieldX ir) (fieldNN ir))
  | 0x7 => some (.addImm (fieldX ir) (fieldNN ir))
  | 0x8 => decode8 ir
  | 0x9 => decodeRegPair ir (.sneReg (fieldX ir) (fieldY ir))
  | 0xA => some (.ldI (fieldNNN ir))
  | 0xB => some (.jpV0 (fieldNNN ir))
  | 0xC => some (.rnd (fieldX ir) (fieldNN ir))
  | 0xD => some (.drw (fieldX ir) (fieldY ir) (fieldN ir))
  | 0xE => decodeE ir
  | _ => decodeF ir

/-- R53: the first byte (lower address) is the high byte of the word. -/
def wordOfBytes (hi lo : Byte) : Word := hi ++ lo

/-- The decoder on bytes, as they stand in memory from the instruction's address up: the instruction and the bytes
after it, or the reason there is none. -/
def decode : List Byte → Except Reject (Instr × List Byte)
  | hi :: lo :: rest =>
    match decodeWord (wordOfBytes hi lo) with
    | some i => .ok (i, rest)
    | none => .error (.illegal (wordOfBytes hi lo))
  | [_] => .error .truncated
  | [] => .error .truncated

/-- R82: a word's bytes as they lie in memory, the high byte at the lower address. -/
def bytesOfWord (w : Word) : List Byte := [w.extractLsb' 8 8, w.extractLsb' 0 8]

/-- The host's question about a row of spec/opcode_table.json: the instruction the decoder reads from the word whose
low `nbits` bits are those of `w`. An instruction has one 16-bit word, laid out high byte first (R53). -/
def decodeTableWord (nbits w : Nat) : Option Instr :=
  match decode (bytesOfWord (BitVec.ofNat 16 (w % 2 ^ nbits))) with
  | .ok (i, _) => some i
  | .error _ => none

/-! ### The opcode map and the encoder -/

/-- One row of 30_encoding.md R74: a word `w` selects the row when `w AND mask = pattern`. -/
structure OpcodeRow where
  name : String
  pattern : Word
  mask : Word
  deriving DecidableEq, Repr

/-- Whether a word selects a row (R74). -/
def OpcodeRow.selects (r : OpcodeRow) (w : Word) : Bool := w &&& r.mask == r.pattern

/-- 30_encoding.md R74, rows 0000 to 7XNN. -/
def opcodeMapLow : List OpcodeRow :=
  [⟨"NOP", 0x0000#16, 0xFFFF#16⟩, ⟨"CLS", 0x00E0#16, 0xFFFF#16⟩, ⟨"RET", 0x00EE#16, 0xFFFF#16⟩,
   ⟨"JP", 0x1000#16, 0xF000#16⟩, ⟨"CALL", 0x2000#16, 0xF000#16⟩, ⟨"SE_IMM", 0x3000#16, 0xF000#16⟩,
   ⟨"SNE_IMM", 0x4000#16, 0xF000#16⟩, ⟨"SE_REG", 0x5000#16, 0xF00F#16⟩, ⟨"LD_IMM", 0x6000#16, 0xF000#16⟩,
   ⟨"ADD_IMM", 0x7000#16, 0xF000#16⟩]

/-- 30_encoding.md R74, rows 8XY0 to DXYN. -/
def opcodeMapMid : List OpcodeRow :=
  [⟨"LD_REG", 0x8000#16, 0xF00F#16⟩, ⟨"OR", 0x8001#16, 0xF00F#16⟩, ⟨"AND", 0x8002#16, 0xF00F#16⟩,
   ⟨"XOR", 0x8003#16, 0xF00F#16⟩, ⟨"ADD_REG", 0x8004#16, 0xF00F#16⟩, ⟨"SUB", 0x8005#16, 0xF00F#16⟩,
   ⟨"SHR", 0x8006#16, 0xF00F#16⟩, ⟨"SUBN", 0x8007#16, 0xF00F#16⟩, ⟨"SHL", 0x800E#16, 0xF00F#16⟩,
   ⟨"SNE_REG", 0x9000#16, 0xF00F#16⟩, ⟨"LD_I", 0xA000#16, 0xF000#16⟩, ⟨"JP_V0", 0xB000#16, 0xF000#16⟩,
   ⟨"RND", 0xC000#16, 0xF000#16⟩, ⟨"DRW", 0xD000#16, 0xF000#16⟩]

/-- 30_encoding.md R74, rows EX9E to FX65. -/
def opcodeMapHigh : List OpcodeRow :=
  [⟨"SKP", 0xE09E#16, 0xF0FF#16⟩, ⟨"SKNP", 0xE0A1#16, 0xF0FF#16⟩, ⟨"LD_VX_DT", 0xF007#16, 0xF0FF#16⟩,
   ⟨"LD_VX_K", 0xF00A#16, 0xF0FF#16⟩, ⟨"LD_DT_VX", 0xF015#16, 0xF0FF#16⟩, ⟨"LD_ST_VX", 0xF018#16, 0xF0FF#16⟩,
   ⟨"ADD_I", 0xF01E#16, 0xF0FF#16⟩, ⟨"LD_F", 0xF029#16, 0xF0FF#16⟩, ⟨"LD_B", 0xF033#16, 0xF0FF#16⟩,
   ⟨"LD_MEM_VX", 0xF055#16, 0xF0FF#16⟩, ⟨"LD_VX_MEM", 0xF065#16, 0xF0FF#16⟩]

/-- The whole opcode map, 35 rows (R74). -/
def opcodeMap : List OpcodeRow := opcodeMapLow ++ opcodeMapMid ++ opcodeMapHigh

/-- The row of R74 an instruction belongs to: the name it has there. -/
def Instr.name : Instr → String
  | .nop => "NOP" | .cls => "CLS" | .ret => "RET" | .jp _ => "JP" | .call _ => "CALL"
  | .seImm _ _ => "SE_IMM" | .sneImm _ _ => "SNE_IMM" | .seReg _ _ => "SE_REG"
  | .ldImm _ _ => "LD_IMM" | .addImm _ _ => "ADD_IMM" | .ldReg _ _ => "LD_REG"
  | .or _ _ => "OR" | .and _ _ => "AND" | .xor _ _ => "XOR" | .addReg _ _ => "ADD_REG"
  | .sub _ _ => "SUB" | .shr _ _ => "SHR" | .subn _ _ => "SUBN" | .shl _ _ => "SHL"
  | .sneReg _ _ => "SNE_REG" | .ldI _ => "LD_I" | .jpV0 _ => "JP_V0" | .rnd _ _ => "RND"
  | .drw _ _ _ => "DRW" | .skp _ => "SKP" | .sknp _ => "SKNP" | .ldVxDt _ => "LD_VX_DT"
  | .ldVxK _ => "LD_VX_K" | .ldDtVx _ => "LD_DT_VX" | .ldStVx _ => "LD_ST_VX" | .addI _ => "ADD_I"
  | .ldF _ => "LD_F" | .ldB _ => "LD_B" | .ldMemVx _ => "LD_MEM_VX" | .ldVxMem _ => "LD_VX_MEM"

/-- A 4-bit field as a 16-bit value, for placing it in a word. -/
def nibbleWord (v : BitVec 4) : Word := v.setWidth 16

/-- A register index as the 4-bit field that holds it. -/
def regField (x : RegIx) : BitVec 4 := BitVec.ofFin x

/-- R82, format A: `match OR NNN`. -/
def encodeA (pattern : Word) (nnn : Addr12) : Word := pattern ||| nnn.setWidth 16

/-- R82, format I: `match OR (X << 8) OR NN`. -/
def encodeI (pattern : Word) (x : RegIx) (nn : Byte) : Word := pattern ||| nibbleWord (regField x) <<< 8 ||| nn.setWidth 16

/-- R82, format R: `match OR (X << 8) OR (Y << 4)`. -/
def encodeR (pattern : Word) (x y : RegIx) : Word := pattern ||| nibbleWord (regField x) <<< 8 ||| nibbleWord (regField y) <<< 4

/-- R82, format D: `match OR (X << 8) OR (Y << 4) OR N`; a count above 15 has no encoding and loses its high bits. -/
def encodeD (pattern : Word) (x y : RegIx) (n : Nat) : Word :=
  pattern ||| nibbleWord (regField x) <<< 8 ||| nibbleWord (regField y) <<< 4 ||| nibbleWord (BitVec.ofNat 4 n)

/-- R82, format U: `match OR (X << 8)`. -/
def encodeU (pattern : Word) (x : RegIx) : Word := pattern ||| nibbleWord (regField x) <<< 8

/-- The instruction word of a well-formed instruction (R82). -/
def encodeWord : Instr → Word
  | .nop => 0x0000#16
  | .cls => 0x00E0#16
  | .ret => 0x00EE#16
  | .jp nnn => encodeA 0x1000#16 nnn
  | .call nnn => encodeA 0x2000#16 nnn
  | .seImm x nn => encodeI 0x3000#16 x nn
  | .sneImm x nn => encodeI 0x4000#16 x nn
  | .seReg x y => encodeR 0x5000#16 x y
  | .ldImm x nn => encodeI 0x6000#16 x nn
  | .addImm x nn => encodeI 0x7000#16 x nn
  | .ldReg x y => encodeR 0x8000#16 x y
  | .or x y => encodeR 0x8001#16 x y
  | .and x y => encodeR 0x8002#16 x y
  | .xor x y => encodeR 0x8003#16 x y
  | .addReg x y => encodeR 0x8004#16 x y
  | .sub x y => encodeR 0x8005#16 x y
  | .shr x y => encodeR 0x8006#16 x y
  | .subn x y => encodeR 0x8007#16 x y
  | .shl x y => encodeR 0x800E#16 x y
  | .sneReg x y => encodeR 0x9000#16 x y
  | .ldI nnn => encodeA 0xA000#16 nnn
  | .jpV0 nnn => encodeA 0xB000#16 nnn
  | .rnd x nn => encodeI 0xC000#16 x nn
  | .drw x y n => encodeD 0xD000#16 x y n
  | .skp x => encodeU 0xE09E#16 x
  | .sknp x => encodeU 0xE0A1#16 x
  | .ldVxDt x => encodeU 0xF007#16 x
  | .ldVxK x => encodeU 0xF00A#16 x
  | .ldDtVx x => encodeU 0xF015#16 x
  | .ldStVx x => encodeU 0xF018#16 x
  | .addI x => encodeU 0xF01E#16 x
  | .ldF x => encodeU 0xF029#16 x
  | .ldB x => encodeU 0xF033#16 x
  | .ldMemVx x => encodeU 0xF055#16 x
  | .ldVxMem x => encodeU 0xF065#16 x

/-- The bytes of an instruction as they are placed in memory (R82). -/
def encode (i : Instr) : List Byte := bytesOfWord (encodeWord i)

/-! ### The written form (R80) -/

/-- The sixteen hexadecimal digits. -/
def hexDigits : List String :=
  ["0", "1", "2", "3", "4", "5", "6", "7", "8", "9", "A", "B", "C", "D", "E", "F"]

/-- One hexadecimal digit of `n`, the one of weight 16 to the `k`. -/
def hexDigit (n k : Nat) : String := hexDigits.getD (n / 16 ^ k % 16) "0"

/-- A V register as an operand: `V` and one hexadecimal digit (R80). -/
def regText (x : RegIx) : String := "V" ++ hexDigit x.val 0

/-- An 8-bit literal. R80 fixes no notation for literals; that it is hexadecimal, with the 0x of R9, is the model's choice
(log 24). -/
def byteText (nn : Byte) : String := "0x" ++ hexDigit nn.toNat 1 ++ hexDigit nn.toNat 0

/-- A 12-bit literal, hexadecimal likewise (log 24). -/
def addrText (nnn : Addr12) : String := "0x" ++ hexDigit nnn.toNat 2 ++ hexDigit nnn.toNat 1 ++ hexDigit nnn.toNat 0

/-- A 4-bit literal, the row count of DRW, in decimal and so without 0x (R9). That it is decimal where the other literals
are hexadecimal is the model's choice (log 24); R80 fixes no notation. -/
def countText (n : Nat) : String := if n < 10 then hexDigit n 0 else "1" ++ hexDigit (n - 10) 0

/-- A mnemonic with the operands `Vx` and `nn`. -/
def immText (m : String) (x : RegIx) (nn : Byte) : String := m ++ " " ++ regText x ++ ", " ++ byteText nn

/-- A mnemonic with the operands `Vx` and `Vy`. -/
def pairText (m : String) (x y : RegIx) : String := m ++ " " ++ regText x ++ ", " ++ regText y

/-- The line of R80's table for an instruction (log 24): what the spec's listings write, no behaviour of the machine. -/
def Instr.listing : Instr → String
  | .nop => "NOP" | .cls => "CLS" | .ret => "RET"
  | .jp nnn => "JP " ++ addrText nnn | .call nnn => "CALL " ++ addrText nnn
  | .seImm x nn => immText "SE" x nn | .sneImm x nn => immText "SNE" x nn
  | .seReg x y => pairText "SE" x y | .sneReg x y => pairText "SNE" x y
  | .ldImm x nn => immText "LD" x nn | .addImm x nn => immText "ADD" x nn | .rnd x nn => immText "RND" x nn
  | .ldReg x y => pairText "LD" x y | .or x y => pairText "OR" x y | .and x y => pairText "AND" x y
  | .xor x y => pairText "XOR" x y | .addReg x y => pairText "ADD" x y | .sub x y => pairText "SUB" x y
  | .shr x y => pairText "SHR" x y | .subn x y => pairText "SUBN" x y | .shl x y => pairText "SHL" x y
  | .ldI nnn => "LD I, " ++ addrText nnn | .jpV0 nnn => "JP V0, " ++ addrText nnn
  | .drw x y n => pairText "DRW" x y ++ ", " ++ countText n
  | .skp x => "SKP " ++ regText x | .sknp x => "SKNP " ++ regText x
  | .ldVxDt x => "LD " ++ regText x ++ ", DT" | .ldVxK x => "LD " ++ regText x ++ ", K"
  | .ldDtVx x => "LD DT, " ++ regText x | .ldStVx x => "LD ST, " ++ regText x
  | .addI x => "ADD I, " ++ regText x | .ldF x => "LD F, " ++ regText x | .ldB x => "LD B, " ++ regText x
  | .ldMemVx x => "LD [I], " ++ regText x | .ldVxMem x => "LD " ++ regText x ++ ", [I]"

end Sys2Proof
end

