-- ==== Sys2Proof/Config.lean ====
section
/-! DEFINITION. What the spec fixes as implementation parameters (00_scope.md R5) and the one free value (R6, R133).
The two parameters whose values come from general knowledge, the glyph table (R62, G1) and the sprite bit order
(R152, G2), are named definitions in Machine/Ops.lean and Machine/Operands.lean, where a later repair may mend them. -/

namespace Sys2Proof.Config

/-- `MEM_SIZE`: bytes of memory, addresses 0x000 to 0xFFF (R5, R50). -/
abbrev memSize : Nat := 4096

/-- `LOAD_BASE`: the program load address and the reset value of `pc` (R5, R35). -/
abbrev loadBase : Nat := 512

/-- `MAX_IMAGE`: the largest program image in bytes (R5, R173). -/
abbrev maxImage : Nat := 3584

/-- `STACK_DEPTH`: return-address slots (R5, R25). -/
abbrev stackDepth : Nat := 16

/-- `DISP_W`: display columns (R5, R28). -/
abbrev dispW : Nat := 64

/-- `DISP_H`: display rows (R5, R28). -/
abbrev dispH : Nat := 32

/-- `NKEYS`: keys (R5, R27). -/
abbrev nKeys : Nat := 16

/-- `GLYPH_BYTES`: the size of the glyph table (R5, R62). -/
abbrev glyphBytes : Nat := 80

/-- `GLYPH_STRIDE`: bytes per glyph (R5, R142). -/
abbrev glyphStride : Nat := 5

/-- FREE VALUE (log 1, 42_load_alu.md R133, decision D13): the byte the `n`-th RND draws, `random_byte` of R6. It has no
body: nothing can be proved of its values, and what is proved holds for every draw. -/
opaque randomByte : Nat → Byte

end Sys2Proof.Config
end

