-- ==== Sys2Proof/Machine/State.lean ====
section
/-! DEFINITION. The state of the Machine (10_state.md R20: "The Machine holds exactly the state of this table and no
other"), its reset (R35, R220), and the outcomes of a step. Plain data throughout. -/

namespace Sys2Proof.Machine

/-- The causes of a fault, 60_exceptions.md R190, in the order of their codes 1 to 7. -/
inductive FaultCause where
  /-- code 1: a fetched word matches no form (R193); `info` is the word -/
  | illegalInstruction
  /-- code 2: CALL with 16 return addresses held (R191); `info` is 16 -/
  | stackOverflow
  /-- code 3: RET with an empty stack (R192); `info` is 0 -/
  | stackUnderflow
  /-- code 4: a byte address above 0xFFF (R194); `info` is the lowest out-of-range address -/
  | address
  /-- code 5: SKP or SKNP with `V[X]` above 15 (R209); `info` is `V[X]` -/
  | keyIndex
  /-- code 6: `load` of more than 3584 bytes (R181); `info` is min(length, 0xFFFF) -/
  | loadTooLarge
  /-- code 7: `set_key` with an index above 15 (R181); `info` is the index -/
  | hostKeyIndex
  deriving DecidableEq, Repr

/-- The run state, 10_state.md R30. -/
inductive Mode where
  /-- `step` fetches and executes -/
  | running
  /-- the machine waits for a key; `r` is the register that will receive it (R162) -/
  | awaitingKey (r : RegIx)
  /-- terminal until `reset`: the fault record (R31, R195) -/
  | faulted (cause : FaultCause) (info : Word)
  deriving DecidableEq, Repr

/-- Memory: the bytes that differ from what an unlisted address reads as (`unlisted`, Machine/Ops.lean), as (address,
byte) pairs with strictly rising addresses below 4096. The canonical form is `Memory.wf`. -/
abbrev Memory := List Host.Cell

/-- The display, `display[y][x]`: 32 rows (first index) of 64 one-bit cells, true meaning lit (R28). -/
abbrev Display := Vector (Vector Bool 64) 32

/-- The Machine, field by field the table of 10_state.md R20. -/
structure State where
  /-- program counter (R23) -/
  pc : Word
  /-- memory (R29, R50) -/
  mem : Memory
  /-- the framebuffer (R28) -/
  display : Display
  /-- the byte registers `V[0]` to `V[15]`; `V[15]` is also the flag (R21, R22) -/
  v : Vector Byte 16
  /-- the index register `I` (R24) -/
  i : Word
  /-- the return-address slots `stack[0]` to `stack[15]` (R25) -/
  stack : Vector Word 16
  /-- the stack pointer, 0 to 16: how many return addresses are held (R25) -/
  sp : Fin 17
  /-- the delay timer `DT` (R26) -/
  dt : Byte
  /-- the sound timer `ST` (R26) -/
  st : Byte
  /-- the key flags, true meaning pressed (R27) -/
  keys : Vector Bool 16
  /-- the run mode (R30) -/
  mode : Mode
  /-- THE MODEL'S OWN (log 1), not the spec's: how many bytes RND has drawn, so that each draw is fresh (R133) -/
  draws : Nat
  deriving DecidableEq, Repr

/-- Why the machine model stops with a fault: never. EVERY fault of this hardware is an event whose entry the spec
describes (60_exceptions.md R195: the mode becomes `Faulted(cause, info)`), so `step` takes it and answers a next state
(log 5), and no constructor is left to raise. Safe: nothing is claimed of a stopped model. -/
inductive Fault
  deriving DecidableEq, Repr

/-- Why the model refuses. -/
inductive Refusal where
  /-- An instruction of the table that has no meaning yet: raised by an arm of `exec` that names it. No arm does, since
  all 35 forms have their meaning. Safe: a refusal proves nothing. -/
  | notModelled (mnemonic : String)
  deriving DecidableEq, Repr

/-- What a meaning or a step answers. -/
abbrev Answer := Host.Outcome State Fault Refusal

/-- The result `step` reports to the host (50_host_interface.md R171). -/
inductive StepResult where
  /-- one instruction completed, or a key wait ended -/
  | ok
  /-- the machine is in `AwaitingKey` mode after this step -/
  | awaitingKey
  /-- a fault was raised in this step, or the machine was already `Faulted` -/
  | fault (cause : FaultCause) (info : Word)
  deriving DecidableEq, Repr

/-- The result of `load` and `set_key` (R173, R174, R181). -/
inductive HostResult where
  /-- the operation took effect -/
  | ok
  /-- the host-misuse fault reported synchronously (R181) -/
  | error (cause : FaultCause) (info : Word)
  deriving DecidableEq, Repr

/-- The canonical start state, 10_state.md R35 and 70_reset_and_hazards.md R220. Nothing is listed in memory: an unlisted
byte reads as its reset contents. `draws` is the model's own (log 1). -/
def State.reset : State where
  pc := 0x0200#16
  mem := []
  display := Vector.replicate 32 (Vector.replicate 64 false)
  v := Vector.replicate 16 0#8
  i := 0#16
  stack := Vector.replicate 16 0#16
  sp := 0
  dt := 0#8
  st := 0#8
  keys := Vector.replicate 16 false
  mode := .running
  draws := 0

end Sys2Proof.Machine
end

