-- ==== Sys2Proof/Machine/Ops.lean ====
section
/-! DEFINITION. The named operations over memory, registers, stack, display and mode. Every instruction reads and writes
the state through these; fault entry (60_exceptions.md R195) is one of them. -/

namespace Sys2Proof.Machine

/-! ### Memory (20_memory.md) -/

/-- The glyphs of the hexadecimal digits, five bytes each, 20_memory.md R62. PRESUMED (log 2): the source gives no byte of
the table; these are the spec's default, from general knowledge (G1). -/
def glyphs : List (List Byte) :=
  [[0xF0, 0x90, 0x90, 0x90, 0xF0], [0x20, 0x60, 0x20, 0x20, 0x70], [0xF0, 0x10, 0xF0, 0x80, 0xF0],
   [0xF0, 0x10, 0xF0, 0x10, 0xF0], [0x90, 0x90, 0xF0, 0x10, 0x10], [0xF0, 0x80, 0xF0, 0x10, 0xF0],
   [0xF0, 0x80, 0xF0, 0x90, 0xF0], [0xF0, 0x10, 0x20, 0x40, 0x40], [0xF0, 0x90, 0xF0, 0x90, 0xF0],
   [0xF0, 0x90, 0xF0, 0x10, 0xF0], [0xF0, 0x90, 0xF0, 0x90, 0x90], [0xE0, 0x90, 0xE0, 0x90, 0xE0],
   [0xF0, 0x80, 0x80, 0x80, 0xF0], [0xE0, 0x90, 0x90, 0x90, 0xE0], [0xF0, 0x80, 0xF0, 0x80, 0xF0],
   [0xF0, 0x80, 0xF0, 0x80, 0x80]]

/-- `GLYPH_TABLE`, the 80 bytes `reset` writes to addresses 0 to 79 (R62). -/
def glyphTable : List Byte := glyphs.flatten

/-- What an unlisted address reads as: its reset contents (R35): the glyph table at 0 to 79 and 0 above (the spec's D12,
log 4). -/
def unlisted (a : Nat) : Byte := glyphTable.getD a 0#8

/-- The byte at an address. Callers check the address first (`accessFault`); above 0xFFF no byte exists and none is
listed (log 27). -/
def Memory.read : Memory → Nat → Byte
  | [], a => unlisted a
  | (k, b) :: m, a => if k = a then b else Memory.read m a

/-- List the byte `b` at `a`, in rising order of addresses. -/
def Memory.put : Memory → Nat → Byte → Memory
  | [], a, b => [(a, b)]
  | (k, c) :: m, a, b =>
    if a < k then (a, b) :: (k, c) :: m
    else if k = a then (a, b) :: m
    else (k, c) :: Memory.put m a b

/-- Unlist an address: it reads its reset contents again. -/
def Memory.unlist (m : Memory) (a : Nat) : Memory := m.filter (fun c => c.1 ≠ a)

/-- Write one byte, keeping the canonical form. An address above 0xFFF does not exist and nothing is written there (log
27); callers check it first. -/
def Memory.write (m : Memory) (a : Nat) (b : Byte) : Memory :=
  if a < Config.memSize then
    if b = unlisted a then Memory.unlist m a else Memory.put m a b
  else m

/-- The canonical form from address `lo` on: addresses strictly rising and below 4096, no listed byte equal to what the
address reads as unlisted. -/
def Memory.wfFrom (lo : Nat) : Memory → Bool
  | [] => true
  | (a, b) :: m => decide (lo ≤ a) && decide (a < Config.memSize) && decide (b ≠ unlisted a) && Memory.wfFrom (a + 1) m

/-- The canonical form of memory. -/
def Memory.wf (m : Memory) : Bool := Memory.wfFrom 0 m

/-- Read the `n` bytes at `a`, `a + 1`, ... (R52: addresses are plain integers). -/
def Memory.readBytes (m : Memory) (a n : Nat) : List Byte := (List.range n).map (fun k => Memory.read m (a + k))

/-- Write bytes at `a`, `a + 1`, ... in rising order (R57). -/
def Memory.writeBytes : Memory → Nat → List Byte → Memory
  | m, _, [] => m
  | m, a, b :: bs => Memory.writeBytes (Memory.write m a b) (a + 1) bs

/-- 20_memory.md R52: the access to the `n` bytes at `base` faults exactly when `n >= 1` and `base + n - 1 > 0xFFF`; the
answer is then the lowest out-of-range byte address, `max(base, 0x1000)`. -/
def accessFault (base n : Nat) : Option Word :=
  if 0 < n ∧ 0x0FFF < base + n - 1 then some (BitVec.ofNat 16 (max base 0x1000)) else none

/-! ### Registers -/

/-- Read `V[x]`. -/
def State.reg (s : State) (x : RegIx) : Byte := s.v[x.val]

/-- `V[x] <- b`. -/
def State.setReg (s : State) (x : RegIx) (b : Byte) : State := { s with v := s.v.set x.val b }

/-- `V[15]`, the flag register VF (R22). -/
def flagReg : RegIx := 15

/-- Load bytes into `V[k]`, `V[k+1]`, ... in rising order (R145). -/
def loadRegs : Vector Byte 16 → Nat → List Byte → Vector Byte 16
  | v, _, [] => v
  | v, k, b :: bs => loadRegs (v.setIfInBounds k b) (k + 1) bs

/-- Write the V registers as a whole. -/
def State.setRegs (s : State) (v : Vector Byte 16) : State := { s with v := v }

/-- `pc <- target`. -/
def State.setPc (s : State) (target : Word) : State := { s with pc := target }

/-- `I <- w`. -/
def State.setI (s : State) (w : Word) : State := { s with i := w }

/-- `DT <- b`. -/
def State.setDt (s : State) (b : Byte) : State := { s with dt := b }

/-- `ST <- b`. -/
def State.setSt (s : State) (b : Byte) : State := { s with st := b }

/-- `mode <- m`. -/
def State.setMode (s : State) (m : Mode) : State := { s with mode := m }

/-- Write memory as a whole. -/
def State.setMem (s : State) (m : Memory) : State := { s with mem := m }

/-- Write the display as a whole. -/
def State.setDisplay (s : State) (d : Display) : State := { s with display := d }

/-- Read key flag `k` (R27). -/
def State.key (s : State) (k : Fin 16) : Bool := s.keys[k.val]

/-- Write key flag `k`: only the host's `set_key` does (R174). -/
def State.setKeyFlag (s : State) (k : Fin 16) (pressed : Bool) : State := { s with keys := s.keys.set k.val pressed }

/-- The byte RND draws next, and the state in which it is drawn (R133: "fresh at each RND"; log 1). -/
def State.draw (s : State) : Byte × State := (Config.randomByte s.draws, { s with draws := s.draws + 1 })

/-! ### Advancing the program counter -/

/-- `pc <- pc + 2`, modulo 2^16 (R23): the fetch advance (R73), and once more for a skip that is taken (R110). -/
def State.advance (s : State) : State := s.setPc (s.pc + 2#16)

/-- A skip: advance when the condition holds (R110). -/
def State.skipIf (s : State) (c : Bool) : State := if c then s.advance else s

/-! ### The call stack (10_state.md R25) -/

/-- Read slot `k` of the call stack. -/
def State.slot (s : State) (k : Fin 16) : Word := s.stack[k.val]

/-- Push a return address; `none` when 16 are already held (R103). -/
def State.push (s : State) (w : Word) : Option State :=
  if h : s.sp.val < 16 then
    some { s with stack := s.stack.set s.sp.val w h, sp := ⟨s.sp.val + 1, by omega⟩ }
  else none

/-- Pop a return address; `none` when none is held (R101). The slot read keeps its value (R25). -/
def State.pop (s : State) : Option (Word × State) :=
  if h : s.sp.val = 0 then none
  else some (s.stack[s.sp.val - 1]'(by omega), { s with sp := ⟨s.sp.val - 1, by omega⟩ })

/-! ### The display (10_state.md R28) -/

/-- The cell at column `x` of row `y`. -/
def Display.get (d : Display) (x : Fin 64) (y : Fin 32) : Bool := (d[y.val])[x.val]

/-- XOR the cell at column `x` of row `y` with 1 (R151). -/
def Display.flip (d : Display) (x : Fin 64) (y : Fin 32) : Display :=
  d.set y.val ((d[y.val]).set x.val (!(Display.get d x y)))

/-- All 2048 cells 0. -/
def Display.clear : Display := Vector.replicate 32 (Vector.replicate 64 false)

/-- `display[y][x]` of a state. -/
def State.pixel (s : State) (x : Fin 64) (y : Fin 32) : Bool := Display.get s.display x y

/-! ### Fault entry (60_exceptions.md R195) -/

/-- The number of a cause, R190. -/
def faultCode : FaultCause → Nat
  | .illegalInstruction => 1
  | .stackOverflow => 2
  | .stackUnderflow => 3
  | .address => 4
  | .keyIndex => 5
  | .loadTooLarge => 6
  | .hostKeyIndex => 7

/-- R195: "if mode is not Faulted: mode <- Faulted(cause, info)"; no other state is written, and a record once written is
kept until `reset`. There is no return from a fault (R197): the only exit is `hostReset`. -/
def State.raiseFault (s : State) (cause : FaultCause) (info : Word) : State :=
  match s.mode with
  | .faulted _ _ => s
  | .running => s.setMode (.faulted cause info)
  | .awaitingKey _ => s.setMode (.faulted cause info)

/-- Raise a fault as the answer of a meaning: the fault is taken, a next state (log 5). -/
def answerFault (s : State) (cause : FaultCause) (info : Word) : Answer := .next (s.raiseFault cause info)

/-- Run `k` when the access to `n` bytes at `base` is in range; else take the ADDRESS fault before any write (R52, R194). -/
def withAccess (s : State) (base n : Nat) (k : Answer) : Answer :=
  match accessFault base n with
  | some a => answerFault s .address a
  | none => k

end Sys2Proof.Machine
end

