-- ==== Sys2Proof/Machine/Operands.lean ====
section
/-! DEFINITION. Operand forms: immediates (30_encoding.md R72), effective addresses (43_index_memory.md R146), digits,
glyph addresses, key indices, and the pixels of a sprite (44_display.md R151, R152). -/

namespace Sys2Proof.Machine

/-- `zext_16(NNN)` (R72). -/
def addrImm (nnn : Addr12) : Word := nnn.setWidth 16

/-- `zext_16` of a byte. -/
def zext16 (b : Byte) : Word := b.setWidth 16

/-- The base of the data accesses: `I` as an unbounded non-negative integer (R146). -/
def State.base (s : State) : Nat := s.i.toNat

/-- The values of `V[0]` to `V[x]`, in order (R144: the range is inclusive). -/
def State.regsUpTo (s : State) (x : RegIx) : List Byte := s.v.toList.take (x.val + 1)

/-- The three decimal digits LD_B stores, hundreds first (R143). -/
def bcdDigits (b : Byte) : List Byte := [b / 100#8, (b / 10#8) % 10#8, b % 10#8]

/-- `zext_16(V[X]) * 5`, the address of a glyph (R142; for values above 15 the literal product, the spec's D11, log 15). -/
def glyphAddr (b : Byte) : Word := zext16 b * 5#16

/-- A byte as a key index: only 0 to 15 are (R115, R209; the spec's D10, log 14). -/
def keyIndex (b : Byte) : Option (Fin 16) := if h : b.toNat < 16 then some ⟨b.toNat, h⟩ else none

/-- The sprite bit order as a configuration switch (R152): true takes bit 7 as the leftmost pixel. PRESUMED (log 3): the
source does not say; it is the convention of general knowledge (G2, D20). -/
def spriteMsbLeft : Bool := true

/-- The pixel of sprite column `c`, 0 to 7 from the left, in a sprite byte (R152). -/
def spriteBit (b : Byte) (c : Nat) : Bool := if spriteMsbLeft then b.getLsbD (7 - c) else b.getLsbD c

/-- The display column of `n`: modulo 64 (R151). -/
def wrapX (n : Nat) : Fin 64 := ⟨n % 64, Nat.mod_lt _ (by decide)⟩

/-- The display row of `n`: modulo 32 (R151). -/
def wrapY (n : Nat) : Fin 32 := ⟨n % 32, Nat.mod_lt _ (by decide)⟩

end Sys2Proof.Machine
end

