-- ==== Sys2Proof/Machine/ControlFlow.lean ====
section
/-! DEFINITION. 40_control_flow.md: NOP, RET, JP, CALL, JP_V0. In every meaning `s.pc` is the post-fetch value (R10, R73). -/

namespace Sys2Proof.Machine

/-- R100: nothing; `pc` stays at the post-fetch value. -/
def execNop (s : State) : Answer := .next s

/-- R101: STACK_UNDERFLOW when the stack is empty; else `sp <- sp - 1`, `pc <- stack[sp]`. -/
def execRet (s : State) : Answer :=
  match s.pop with
  | none => answerFault s .stackUnderflow 0#16
  | some (target, t) => .next (t.setPc target)

/-- R102: `pc <- zext_16(NNN)`. -/
def execJp (nnn : Addr12) (s : State) : Answer := .next (s.setPc (addrImm nnn))

/-- R103: STACK_OVERFLOW when 16 return addresses are held; else push the post-fetch `pc` and jump. -/
def execCall (nnn : Addr12) (s : State) : Answer :=
  match s.push s.pc with
  | none => answerFault s .stackOverflow 16#16
  | some t => .next (t.setPc (addrImm nnn))

/-- R104: `pc <- zext_16(NNN) + zext_16(V[0])`. -/
def execJpV0 (nnn : Addr12) (s : State) : Answer := .next (s.setPc (addrImm nnn + zext16 (s.reg 0)))

end Sys2Proof.Machine
end

