-- ==== Sys2Proof/Machine/Flags.lean ====
section
/-! DEFINITION. The flag computations of 42_load_alu.md (R120) and the two write orders of R121. `V[15]` is the only flag
(10_state.md R22); a flag is 0 or 1, zero-extended to 8 bits. -/

namespace Sys2Proof.Machine

/-- A one-bit flag as the byte written to `V[15]` (R22). -/
def flagByte (c : Bool) : Byte := if c then 1#8 else 0#8

/-- `s <- zext_9(a) + zext_9(b)`: the 9-bit sum of ADD_REG (R128). -/
def sum9 (a b : Byte) : BitVec 9 := a.setWidth 9 + b.setWidth 9

/-- `s[7:0]` (R128). -/
def sumResult (a b : Byte) : Byte := (sum9 a b).extractLsb' 0 8

/-- `s[8]`: the carry (R128). -/
def carryFlag (a b : Byte) : Byte := flagByte ((sum9 a b).getLsbD 8)

/-- 1 when no borrow occurs in `a - b`, that is when `a >= b` unsigned; equality counts as no borrow (R120, R129, R131). -/
def notBorrowFlag (a b : Byte) : Byte := flagByte (b.ule a)

/-- `b[0]`, the bit a right shift moves out (R130). -/
def lowBitFlag (b : Byte) : Byte := flagByte (b.getLsbD 0)

/-- `b[7]`, the bit a left shift moves out (R132). -/
def highBitFlag (b : Byte) : Byte := flagByte (b.getLsbD 7)

/-- ADD_REG, SUB, SUBN: "result to `V[X]`, then flag to `V[15]`", so with X = 15 the flag stands (R121; the spec's D7, log
11). -/
def State.resultThenFlag (s : State) (x : RegIx) (result flag : Byte) : State :=
  (s.setReg x result).setReg flagReg flag

/-- SHR, SHL: "flag to `V[15]`, then result to `V[X]`", so with X = 15 the result stands (R121; the spec's D7, log 11). -/
def State.flagThenResult (s : State) (x : RegIx) (result flag : Byte) : State :=
  (s.setReg flagReg flag).setReg x result

end Sys2Proof.Machine
end

