-- ==== Sys2Proof/Machine/Display.lean ====
section
/-! DEFINITION. 44_display.md: CLS and DRW. The drawing is the loop of R151, pixel by pixel; what it draws and the
collision so far go together through it. -/

namespace Sys2Proof.Machine

/-- One set sprite bit at (x, y): a collision if the pixel is lit, and the pixel toggled (R151). -/
def drawPixel (x : Fin 64) (y : Fin 32) (d : Display × Bool) : Display × Bool :=
  (Display.flip d.1 x y, d.2 || Display.get d.1 x y)

/-- The eight columns of one sprite row, `py` the unwrapped display row (R151). -/
def drawRow (x0 py : Nat) (b : Byte) (d : Display × Bool) : Display × Bool :=
  (List.range 8).foldl (fun d c => if spriteBit b c then drawPixel (wrapX (x0 + c)) (wrapY py) d else d) d

/-- The rows of a sprite, top to bottom (R151). -/
def drawRows (x0 : Nat) : Nat → List Byte → Display × Bool → Display × Bool
  | _, [], d => d
  | py, b :: bs, d => drawRows x0 (py + 1) bs (drawRow x0 py b d)

/-- R150: all 2048 cells to 0. -/
def execCls (s : State) : Answer := .next (s.setDisplay Display.clear)

/-- R151: XOR the `n` sprite rows at `I` onto the display with origin (`V[X]`, `V[Y]`), then the collision to `V[15]`. -/
def execDrw (x y : RegIx) (n : Nat) (s : State) : Answer :=
  withAccess s s.base n
    (match drawRows (s.reg x).toNat (s.reg y).toNat (Memory.readBytes s.mem s.base n) (s.display, false) with
      | (d, collision) => .next ((s.setDisplay d).setReg flagReg (flagByte collision)))

end Sys2Proof.Machine
end

