-- ==== Sys2Proof/Machine/IndexMemory.lean ====
section
/-! DEFINITION. 43_index_memory.md: the index register, and the loads and stores through it. The range check of the whole
access sequence comes before the first write (20_memory.md R52). -/

namespace Sys2Proof.Machine

/-- R140: `I <- zext_16(NNN)`. -/
def execLdI (nnn : Addr12) (s : State) : Answer := .next (s.setI (addrImm nnn))

/-- R141: `I <- (I + zext_16(V[X])) mod 65536`, never a fault. -/
def execAddI (x : RegIx) (s : State) : Answer := .next (s.setI (s.i + zext16 (s.reg x)))

/-- R142: `I <- zext_16(V[X]) * 5`. -/
def execLdF (x : RegIx) (s : State) : Answer := .next (s.setI (glyphAddr (s.reg x)))

/-- R143: the hundreds, tens and ones of `V[X]` to `I`, `I + 1`, `I + 2`; `I` unchanged. -/
def execLdB (x : RegIx) (s : State) : Answer :=
  withAccess s s.base 3 (.next (s.setMem (Memory.writeBytes s.mem s.base (bcdDigits (s.reg x)))))

/-- R144: `V[0]` to `V[X]` to memory from `I` up, then `I <- I + X + 1`. -/
def execLdMemVx (x : RegIx) (s : State) : Answer :=
  withAccess s s.base (x.val + 1)
    (.next ((s.setMem (Memory.writeBytes s.mem s.base (s.regsUpTo x))).setI (s.i + BitVec.ofNat 16 (x.val + 1))))

/-- R145: memory from `I` up to `V[0]` to `V[X]`, then `I <- I + X + 1`. -/
def execLdVxMem (x : RegIx) (s : State) : Answer :=
  withAccess s s.base (x.val + 1)
    (.next ((s.setRegs (loadRegs s.v 0 (Memory.readBytes s.mem s.base (x.val + 1)))).setI
      (s.i + BitVec.ofNat 16 (x.val + 1))))

end Sys2Proof.Machine
end

