-- ==== Sys2Proof/Machine/LoadAlu.lean ====
section
/-! DEFINITION. 42_load_alu.md: load, arithmetic, logic, shift and random instructions. Operands are read before any
write (R121; the spec's D6, log 10). -/

namespace Sys2Proof.Machine

/-- R122: `V[X] <- NN`. -/
def execLdImm (x : RegIx) (nn : Byte) (s : State) : Answer := .next (s.setReg x nn)

/-- R123: `V[X] <- (V[X] + NN) mod 256`, no flag. -/
def execAddImm (x : RegIx) (nn : Byte) (s : State) : Answer := .next (s.setReg x (s.reg x + nn))

/-- R124: `V[X] <- V[Y]`. -/
def execLdReg (x y : RegIx) (s : State) : Answer := .next (s.setReg x (s.reg y))

/-- R125: `V[X] <- V[X] OR V[Y]`. -/
def execOr (x y : RegIx) (s : State) : Answer := .next (s.setReg x (s.reg x ||| s.reg y))

/-- R126: `V[X] <- V[X] AND V[Y]`. -/
def execAnd (x y : RegIx) (s : State) : Answer := .next (s.setReg x (s.reg x &&& s.reg y))

/-- R127: `V[X] <- V[X] XOR V[Y]`. -/
def execXor (x y : RegIx) (s : State) : Answer := .next (s.setReg x (s.reg x ^^^ s.reg y))

/-- R128: the 8-bit sum to `V[X]`, then the carry to `V[15]`. -/
def execAddReg (x y : RegIx) (s : State) : Answer :=
  .next (s.resultThenFlag x (sumResult (s.reg x) (s.reg y)) (carryFlag (s.reg x) (s.reg y)))

/-- R129: `V[X] - V[Y]` to `V[X]`, then 1 to `V[15]` when `V[X] >= V[Y]`, else 0. -/
def execSub (x y : RegIx) (s : State) : Answer :=
  .next (s.resultThenFlag x (s.reg x - s.reg y) (notBorrowFlag (s.reg x) (s.reg y)))

/-- R130: bit 0 of `V[Y]` to `V[15]`, then `V[Y] >> 1` to `V[X]`. -/
def execShr (x y : RegIx) (s : State) : Answer :=
  .next (s.flagThenResult x (s.reg y >>> 1) (lowBitFlag (s.reg y)))

/-- R131: `V[Y] - V[X]` to `V[X]`, then 1 to `V[15]` when `V[Y] >= V[X]`, else 0. -/
def execSubn (x y : RegIx) (s : State) : Answer :=
  .next (s.resultThenFlag x (s.reg y - s.reg x) (notBorrowFlag (s.reg y) (s.reg x)))

/-- R132: bit 7 of `V[Y]` to `V[15]`, then `V[Y] << 1` to `V[X]`. -/
def execShl (x y : RegIx) (s : State) : Answer :=
  .next (s.flagThenResult x (s.reg y <<< 1) (highBitFlag (s.reg y)))

/-- R133: `V[X] <- random_byte AND NN`, the byte a fresh draw (free value, log 1). -/
def execRnd (x : RegIx) (nn : Byte) (s : State) : Answer := .next (s.draw.2.setReg x (s.draw.1 &&& nn))

end Sys2Proof.Machine
end

