-- ==== Sys2Proof/Machine/Skips.lean ====
section
/-! DEFINITION. 41_skips.md: the six conditional skips (R110: "`pc <- pc + 2` on top of the fetch advance"). -/

namespace Sys2Proof.Machine

/-- R111: skip when `V[X] = NN`. -/
def execSeImm (x : RegIx) (nn : Byte) (s : State) : Answer := .next (s.skipIf (s.reg x == nn))

/-- R112: skip when `V[X] != NN`. -/
def execSneImm (x : RegIx) (nn : Byte) (s : State) : Answer := .next (s.skipIf (s.reg x != nn))

/-- R113: skip when `V[X] = V[Y]`. -/
def execSeReg (x y : RegIx) (s : State) : Answer := .next (s.skipIf (s.reg x == s.reg y))

/-- R114: skip when `V[X] != V[Y]`. -/
def execSneReg (x y : RegIx) (s : State) : Answer := .next (s.skipIf (s.reg x != s.reg y))

/-- The key test common to R115 and R116: KEY_INDEX when `V[X] > 15`, else skip when the flag of key `V[X]` is `want`. -/
def skipOnKey (x : RegIx) (want : Bool) (s : State) : Answer :=
  match keyIndex (s.reg x) with
  | none => answerFault s .keyIndex (zext16 (s.reg x))
  | some k => .next (s.skipIf (s.key k == want))

/-- R115: skip when the key `V[X]` is pressed. -/
def execSkp (x : RegIx) (s : State) : Answer := skipOnKey x true s

/-- R116: skip when the key `V[X]` is released. -/
def execSknp (x : RegIx) (s : State) : Answer := skipOnKey x false s

end Sys2Proof.Machine
end

