-- ==== Sys2Proof/Machine/TimersKeys.lean ====
section
/-! DEFINITION. 45_timers_keys.md: reading and setting the timers, entering the key wait, and the step that ends it. -/

namespace Sys2Proof.Machine

/-- R160: `V[X] <- DT`. -/
def execLdVxDt (x : RegIx) (s : State) : Answer := .next (s.setReg x s.dt)

/-- R161: `mode <- AwaitingKey(X)`; `V[X]` is not written by this step. -/
def execLdVxK (x : RegIx) (s : State) : Answer := .next (s.setMode (.awaitingKey x))

/-- R163: `DT <- V[X]`. -/
def execLdDtVx (x : RegIx) (s : State) : Answer := .next (s.setDt (s.reg x))

/-- R164: `ST <- V[X]`. -/
def execLdStVx (x : RegIx) (s : State) : Answer := .next (s.setSt (s.reg x))

/-- The lowest index with `keys[k] = 1` (R162). -/
def State.lowestKey (s : State) : Option (Fin 16) := (List.finRange 16).find? (fun k => s.key k)

/-- One step of the key wait for register `r` (R162): nothing while no key is pressed; else the lowest pressed key to
`V[r]` and the mode to Running. Nothing is fetched (the spec's D8 and D9, log 12 and 13). -/
def awaitKey (r : RegIx) (s : State) : State :=
  match s.lowestKey with
  | none => s
  | some k => (s.setReg r (BitVec.ofNat 8 k.val)).setMode .running

end Sys2Proof.Machine
end

