-- ==== Sys2Proof/Machine/Cycle.lean ====
section
/-! DEFINITION. The parts of `step` (30_encoding.md R73, R77): fetch, the Running step, and the result reported to the
host (50_host_interface.md R171). Machine/Step.lean only calls them. -/

namespace Sys2Proof.Machine

/-- The word at `pc`: `mem[pc] ++ mem[pc+1]` (R73, R53). -/
def State.fetched (s : State) : Word :=
  wordOfBytes (Memory.read s.mem s.pc.toNat) (Memory.read s.mem (s.pc.toNat + 1))

/-- A step in `Running` mode (R77): fetch, which may raise ADDRESS and then leaves `pc`; advance `pc`; decode, which may
raise ILLEGAL_INSTRUCTION; execute. -/
def stepRunning (s : State) : Answer :=
  withAccess s s.pc.toNat 2
    (match decodeWord s.fetched with
      | none => answerFault s.advance .illegalInstruction s.fetched
      | some i => exec i s.advance)

/-- A step in `AwaitingKey(r)` mode (R77, R162). -/
def stepAwaiting (r : RegIx) (s : State) : Answer := .next (awaitKey r s)

/-- A step in `Faulted` mode (R77): no state changes. -/
def stepFaulted (s : State) : Answer := .next s

/-- The result of the step that led to `t`, read off its mode (R171: Ok, AwaitingKey, or the fault; log 7). -/
def stepResult (t : State) : StepResult :=
  match t.mode with
  | .running => .ok
  | .awaitingKey _ => .awaitingKey
  | .faulted c i => .fault c i

/-- Put a word where the next fetch reads it: its two bytes at `pc`, high byte first, after `pc` is set to the load
address if nothing can be fetched from where it points, and with the mode `Running` (R73, R77). -/
def State.placeWord (s : State) (w : Word) : State :=
  let t := if s.pc.toNat ≤ 0x0FFE then s else s.setPc (BitVec.ofNat 16 Config.loadBase)
  (t.setMem (Memory.writeBytes t.mem t.pc.toNat (bytesOfWord w))).setMode .running

end Sys2Proof.Machine
end

