-- ==== Sys2Proof/Machine/Step.lean ====
section
/-! DEFINITION. The operation `step` (30_encoding.md R77), and the placing of an instruction where it fetches next. -/

namespace Sys2Proof.Machine

/-- R77: what a step does depends on the mode alone. -/
def step (s : State) : Host.Outcome State Fault Refusal :=
  match s.mode with
  | .faulted _ _ => stepFaulted s
  | .awaitingKey r => stepAwaiting r s
  | .running => stepRunning s

/-- The state with the instruction of the table word `w` (its low `nbits` bits, the rest 0) where `step` fetches next
(log 25). -/
def State.withFetchWord (s : State) (nbits w : Nat) : State := s.placeWord (BitVec.ofNat 16 (w % 2 ^ nbits))

end Sys2Proof.Machine
end

