-- ==== Sys2Proof/Machine/HostOps.lean ====
section
/-! DEFINITION. The seven operations of 50_host_interface.md R170, which are the only ways the state changes (R7). Each is
atomic; any serial order is legal (R178): `runOps` runs one. All but `step` act alike in every mode (R180). -/

namespace Sys2Proof.Machine

/-- `reset()` (70_reset_and_hazards.md R220): every piece of state the spec gives the machine to its reset value, from any
mode. The draw counter, the model's own, goes on, so that draws after a reset are fresh (log 1). -/
def hostReset (s : State) : State := { State.reset with draws := s.draws }

/-- The host-misuse fault (R181): the operation writes nothing else, the machine becomes `Faulted` unless it already is,
and the error is reported. -/
def misuse (s : State) (cause : FaultCause) (info : Word) : State × HostResult :=
  (s.raiseFault cause info, .error cause info)

/-- `load(bytes)` (R173): the image to 0x200 upward and nothing else; more than 3584 bytes is LOAD_TOO_LARGE. -/
def hostLoad (bytes : List Byte) (s : State) : State × HostResult :=
  if Config.maxImage < bytes.length then
    misuse s .loadTooLarge (BitVec.ofNat 16 (min bytes.length 0xFFFF))
  else (s.setMem (Memory.writeBytes s.mem Config.loadBase bytes), .ok)

/-- `set_key(index, pressed)` (R174): one key flag and nothing else; an index above 15 is HOST_KEY_INDEX (R181). -/
def hostSetKey (index : Nat) (pressed : Bool) (s : State) : State × HostResult :=
  if h : index < 16 then (s.setKeyFlag ⟨index, h⟩ pressed, .ok)
  else misuse s .hostKeyIndex (BitVec.ofNat 16 index)

/-- A timer after one tick: down by one while positive (60_exceptions.md R200). -/
def tickDown (b : Byte) : Byte := if 0#8 < b then b - 1#8 else b

/-- `tick_timers()` (R200). -/
def tickTimers (s : State) : State := (s.setDt (tickDown s.dt)).setSt (tickDown s.st)

/-- `read_display()` (R175): the grid as a function of column and row (the spec's D21, log 20). -/
def readDisplay (s : State) (x : Fin 64) (y : Fin 32) : Bool := s.pixel x y

/-- `sound_active` (R176): 1 exactly when `ST > 0`. -/
def soundActive (s : State) : Bool := decide (0#8 < s.st)

/-- The seven operations. -/
inductive HostOp where
  /-- `reset()`, R220 -/
  | reset
  /-- `load(bytes)`, R173 -/
  | load (bytes : List Byte)
  /-- `set_key(index, pressed)`, R174 -/
  | setKey (index : Nat) (pressed : Bool)
  /-- `read_display()`, R175: reads only -/
  | readDisplay
  /-- reading `sound_active`, R176: reads only -/
  | soundActive
  /-- `tick_timers()`, R200 -/
  | tickTimers
  /-- `step()`, 30_encoding.md R77 -/
  | step
  deriving DecidableEq, Repr

/-- The effect of one operation on the state. -/
def applyOp (op : HostOp) (s : State) : Answer :=
  match op with
  | .reset => .next (hostReset s)
  | .load bytes => .next (hostLoad bytes s).1
  | .setKey index pressed => .next (hostSetKey index pressed s).1
  | .readDisplay => .next s
  | .soundActive => .next s
  | .tickTimers => .next (tickTimers s)
  | .step => step s

/-- A serial order of operations, one after the other (R178). -/
def runOps : List HostOp → State → Answer
  | [], s => .next s
  | op :: ops, s =>
    match applyOp op s with
    | .next t => runOps ops t
    | .fault r => .fault r
    | .refused r => .refused r

end Sys2Proof.Machine
end

