-- ==== Sys2Proof/Safety.lean ====
section
/-! DEFINITION. The terms claims are stated in: what an instruction leaves unchanged (its frame), what a well-formed
state is, what a faulted, waiting or ended run is. -/

namespace Sys2Proof

open Sys2Proof.Machine

/-- What an instruction may write; what is not listed here must be unchanged. -/
structure Writes where
  /-- the V registers that may change -/
  regs : List RegIx := []
  pc : Bool := false
  i : Bool := false
  /-- the stored bytes: the first address and how many -/
  storeAt : Nat := 0
  storeLen : Nat := 0
  display : Bool := false
  stack : Bool := false
  dt : Bool := false
  st : Bool := false
  keys : Bool := false
  mode : Bool := false
  draws : Bool := false

/-- `t` agrees with `s` in every piece of state the list `w` does not name. Memory is compared byte by byte, through the
model's read of one byte, at every address outside the stored bytes; the display cell by cell, the stack slot by slot. -/
structure Frame (w : Writes) (s t : State) : Prop where
  regs : ∀ r, r ∉ w.regs → t.reg r = s.reg r
  pc : w.pc = false → t.pc = s.pc
  i : w.i = false → t.i = s.i
  mem : ∀ a, ¬(w.storeAt ≤ a ∧ a < w.storeAt + w.storeLen) → Memory.read t.mem a = Memory.read s.mem a
  display : w.display = false → ∀ x y, t.pixel x y = s.pixel x y
  stack : w.stack = false → t.sp = s.sp ∧ ∀ k, t.slot k = s.slot k
  dt : w.dt = false → t.dt = s.dt
  st : w.st = false → t.st = s.st
  keys : w.keys = false → ∀ k, t.key k = s.key k
  mode : w.mode = false → t.mode = s.mode
  draws : w.draws = false → t.draws = s.draws

/-- A step at `s` runs the instruction `i` (30_encoding.md R73, R77): the mode is Running, the fetch is in range and the
word at `pc` decodes to `i`. In every other state a step runs no instruction. -/
def StepRuns (s : State) (i : Instr) : Prop :=
  s.mode = .running ∧ s.pc.toNat ≤ 0x0FFE ∧ decodeWord s.fetched = some i

/-- The machine is in the terminal mode (10_state.md R30). -/
def isFaulted (s : State) : Prop := ∃ c info, s.mode = .faulted c info

/-- `t` is `s` after fault entry: the mode is the record and nothing else differs (60_exceptions.md R195). -/
def FaultTaken (s t : State) (c : FaultCause) (info : Word) : Prop :=
  t.mode = .faulted c info ∧ Frame { mode := true } s t

/-- Registers 0 to `x`: what LD_VX_MEM may load (43_index_memory.md R145). -/
def regsThrough (x : RegIx) : List RegIx := (List.finRange 16).filter (fun k => k ≤ x)

/-- The V registers an instruction may write, as its rule says: X, the flag register of the six flag writers (10_state.md
R22), and `V[0]` to `V[X]` for LD_VX_MEM. -/
def mayWriteRegs : Instr → List RegIx
  | .nop | .cls | .ret | .jp _ | .call _ | .ldI _ | .jpV0 _ => []
  | .seImm _ _ | .sneImm _ _ | .seReg _ _ | .sneReg _ _ | .skp _ | .sknp _ => []
  | .ldImm x _ | .addImm x _ | .rnd x _ => [x]
  | .ldReg x _ | .or x _ | .and x _ | .xor x _ => [x]
  | .addReg x _ | .sub x _ | .shr x _ | .subn x _ | .shl x _ => [x, 15]
  | .drw _ _ _ => [15]
  | .ldVxDt x => [x]
  | .ldVxK _ | .ldDtVx _ | .ldStVx _ | .addI _ | .ldF _ | .ldB _ | .ldMemVx _ => []
  | .ldVxMem x => regsThrough x

/-- Some set bit of the `n` sprite rows at `I`, drawn with its origin at (`x0`, `y0`), falls on the cell at column `px` of
row `py`: columns wrap at 64 and rows at 32, and bit 7 of a row is its leftmost pixel (44_display.md R151, R152). -/
def SpriteCovers (s : State) (x0 y0 n : Nat) (px : Fin 64) (py : Fin 32) : Prop :=
  ∃ r c : Nat, r < n ∧ c < 8 ∧ (Memory.read s.mem (s.base + r)).getLsbD (7 - c) = true ∧
    px.val = (x0 + c) % 64 ∧ py.val = (y0 + r) % 32

/-- The start state of 10_state.md R35, piece by piece. -/
structure IsStartState (t : State) : Prop where
  pc : t.pc = 0x0200#16
  regs : ∀ r, t.reg r = 0#8
  i : t.i = 0#16
  slots : ∀ k, t.slot k = 0#16
  sp : t.sp = 0
  timers : t.dt = 0#8 ∧ t.st = 0#8
  keys : ∀ k, t.key k = false
  display : ∀ x y, t.pixel x y = false
  glyphs : ∀ a (h : a < glyphTable.length), Memory.read t.mem a = glyphTable[a]
  rest : ∀ a, 80 ≤ a → a < 4096 → Memory.read t.mem a = 0#8
  mode : t.mode = .running

/-- The bounds 10_state.md R23 and 40_control_flow.md R101 derive for every reachable state, and the canonical form of
memory: no `pc` above 0x10FE, no return address above 0x1000. (`sp` at most 16, the timers at most 255 and the index of
a key wait at most 15, R33, hold by the types of `State`.) -/
def StateInv (s : State) : Prop :=
  Memory.wf s.mem = true ∧ s.pc.toNat ≤ 0x10FE ∧ ∀ k, (s.slot k).toNat ≤ 0x1000

/-- The end of a run as 70_reset_and_hazards.md R228 suggests (the spec's D25, log 23): `mode = Running` and the word at
`pc` is `JP pc`. -/
def runEnded (s : State) : Prop :=
  s.mode = .running ∧ s.pc.toNat ≤ 0x0FFE ∧ s.fetched = 0x1000#16 ||| s.pc

/-- A run of operations that never faults: every prefix of the list leads to a state that is not `Faulted`. -/
def SafeRun (ops : List HostOp) (s : State) : Prop :=
  ∀ n t, runOps (ops.take n) s = .next t → ¬ isFaulted t

end Sys2Proof
end

