-- ==== Sys2Proof/Certificates/Slice0/Obligations.lean ====
section
/-! DEFINITION. The statements for the provers. Each docstring names the rule or section of spec/ it formalises. A state
given to `exec` is the one after fetch: its `pc` is the instruction's address plus 2 (00_scope.md R10). "Derived" marks a
statement a clause of which rests on a decision or derivation the spec calls its own; the log entry is named. -/

open Sys2Proof Sys2Proof.Machine

/-! ### Encoding -/

/-- 30_encoding.md R82, R70: decoding the bytes of a well-formed instruction gives it back, with the bytes after it, at
every value of every operand. -/
def Obligations.DecodeOfEncodeIsTheInstruction : Prop :=
  ∀ (i : Instr) (rest : List Byte), i.WellFormed → decode (encode i ++ rest) = .ok (i, rest)

/-- 30_encoding.md R74, R82: a word that decodes is the encoding of what it decodes to, which is well-formed. -/
def Obligations.EncodeOfDecodeIsTheWord : Prop :=
  ∀ (w : Word) (i : Instr), decodeWord w = some i → i.WellFormed ∧ encodeWord i = w

/-- 30_encoding.md R74, stated: a word selects a row of the 35 exactly when it decodes to that row's form; the rows are
pairwise disjoint; a word that selects none is illegal, and only such a word. -/
def Obligations.RowIsSelectedExactlyWhenItsFormIsDecoded : Prop :=
  opcodeMap.length = 35 ∧
  (∀ (w : Word) (r : OpcodeRow), r ∈ opcodeMap →
    ((w &&& r.mask = r.pattern) ↔ ∃ i, decodeWord w = some i ∧ i.name = r.name)) ∧
  (∀ (w : Word) (r r' : OpcodeRow), r ∈ opcodeMap → r' ∈ opcodeMap →
    w &&& r.mask = r.pattern → w &&& r'.mask = r'.pattern → r = r') ∧
  (∀ w : Word, decodeWord w = none ↔ ∀ r ∈ opcodeMap, w &&& r.mask ≠ r.pattern)

/-- 30_encoding.md R75: the illegal space, exhaustively, in the arithmetic of the word. -/
def Obligations.IllegalWordsAreExactlyTheListedOnes : Prop :=
  ∀ w : Word, decodeWord w = none ↔
    (w.toNat < 0x1000 ∧ w.toNat ≠ 0 ∧ w.toNat ≠ 0xE0 ∧ w.toNat ≠ 0xEE) ∨
    (w.toNat / 0x1000 = 5 ∧ w.toNat % 16 ≠ 0) ∨
    (w.toNat / 0x1000 = 8 ∧ w.toNat % 16 ∈ [8, 9, 0xA, 0xB, 0xC, 0xD, 0xF]) ∨
    (w.toNat / 0x1000 = 9 ∧ w.toNat % 16 ≠ 0) ∨
    (w.toNat / 0x1000 = 0xE ∧ w.toNat % 256 ∉ [0x9E, 0xA1]) ∨
    (w.toNat / 0x1000 = 0xF ∧ w.toNat % 256 ∉ [0x07, 0x0A, 0x15, 0x18, 0x1E, 0x29, 0x33, 0x55, 0x65])

/-- 30_encoding.md R70, R74, R82: words written out from the spec's encodings decode to what they stand for (a sanity
statement). -/
def Obligations.WrittenOutWordsDecode : Prop :=
  decodeWord 0x83A4#16 = some (.addReg 3 10) ∧ decodeWord 0x1ABC#16 = some (.jp 0xABC#12) ∧
  decodeWord 0x3A05#16 = some (.seImm 10 0x05#8) ∧ decodeWord 0xD125#16 = some (.drw 1 2 5) ∧
  decodeWord 0xF265#16 = some (.ldVxMem 2) ∧ decodeWord 0xE3A1#16 = some (.sknp 3) ∧
  decodeWord 0xF30A#16 = some (.ldVxK 3) ∧ decodeWord 0x00EE#16 = some .ret ∧
  decodeWord 0xA2F0#16 = some (.ldI 0x2F0#12) ∧ decodeWord 0x0001#16 = none

/-! ### The step -/

/-- 30_encoding.md R73, R77: in `Running` mode with the fetch in range, when the two bytes at `pc` decode to `i`, a step
is `exec` of `i` on the state whose `pc` has advanced by 2. -/
def Obligations.StepRunsTheDecodedInstruction : Prop :=
  ∀ (s : State) (i : Instr), s.mode = .running → s.pc.toNat ≤ 0x0FFE →
    decode [Memory.read s.mem s.pc.toNat, Memory.read s.mem (s.pc.toNat + 1)] = .ok (i, []) →
    i.WellFormed ∧ step s = exec i { s with pc := s.pc + 2#16 }

/-- 30_encoding.md R73, R75 and 60_exceptions.md R195 (derived: fault entry and record are the spec's D5 and D15, the
moment of the fault its D4; log 5, 6, 9): a fetch out of range takes ADDRESS with `pc` unchanged, an illegal word
ILLEGAL_INSTRUCTION with `pc` advanced; nothing else changes. -/
def Obligations.FetchAndDecodeFaultsAreTaken : Prop :=
  (∀ s : State, s.mode = .running → 0x0FFE < s.pc.toNat →
    ∃ t, step s = .next t ∧ FaultTaken s t .address (BitVec.ofNat 16 (max s.pc.toNat 0x1000))) ∧
  (∀ (s : State) (ir : Word), s.mode = .running → s.pc.toNat ≤ 0x0FFE →
    ir = Memory.read s.mem s.pc.toNat ++ Memory.read s.mem (s.pc.toNat + 1) → decodeWord ir = none →
    ∃ t, step s = .next t ∧ FaultTaken { s with pc := s.pc + 2#16 } t .illegalInstruction ir)

/-- 30_encoding.md R77 (derived: the terminal mode is the spec's D5, log 5): a step of a faulted machine changes no state
and reports the same fault. -/
def Obligations.FaultedStepChangesNothing : Prop :=
  ∀ (s : State) (c : FaultCause) (info : Word), s.mode = .faulted c info →
    step s = .next s ∧ stepResult s = .fault c info

/-- 60_exceptions.md R195 (derived: the spec's D5, D16; log 5, 16): no operation but `reset` changes a fault record, and
`reset` clears it. -/
def Obligations.FaultRecordIsKeptUntilReset : Prop :=
  (∀ (op : HostOp) (s t : State) (c : FaultCause) (info : Word), s.mode = .faulted c info → op ≠ .reset →
    applyOp op s = .next t → t.mode = .faulted c info) ∧
  ∀ s : State, ∃ t, applyOp .reset s = .next t ∧ t.mode = .running

/-- 45_timers_keys.md R162 (derived: the spec's D8, D9; log 12, 13): while no key is pressed a step of the key wait changes
nothing; else it writes the lowest pressed key to the register, sets `Running`, and changes nothing else, `pc` included. -/
def Obligations.KeyWaitTakesTheLowestPressedKey : Prop :=
  ∀ (s : State) (r : RegIx), s.mode = .awaitingKey r →
    ((∀ k, s.key k = false) → step s = .next s ∧ stepResult s = .awaitingKey) ∧
    ∀ k, s.key k = true → (∀ j, j < k → s.key j = false) →
      ∃ t, step s = .next t ∧ (t.reg r).toNat = k.val ∧ t.mode = .running ∧ stepResult t = .ok ∧
        Frame { regs := [r], mode := true } s t

/-- 30_encoding.md R77, 60_exceptions.md R195 (derived: the spec's D5, log 5): every instruction in every state, and every
step, answers a next state; the model never stops. -/
def Obligations.EveryStepAnswersANextState : Prop :=
  (∀ (i : Instr) (s : State), ∃ t, exec i s = .next t) ∧ ∀ s : State, ∃ t, step s = .next t

/-- 30_encoding.md R78: of the instructions, only the jumps, CALL, RET and the skips change `pc` beyond the fetch advance. -/
def Obligations.OnlyControlFlowMovesPc : Prop :=
  ∀ (i : Instr) (s t : State), exec i s = .next t →
    i.name ∉ ["JP", "CALL", "RET", "JP_V0", "SE_IMM", "SNE_IMM", "SE_REG", "SNE_REG", "SKP", "SKNP"] → t.pc = s.pc

/-! ### Control flow -/

/-- 40_control_flow.md R100, stated: NOP does nothing, and only the exact word 0x0000 is a NOP. -/
def Obligations.NopDoesNothing : Prop :=
  (∀ s : State, exec .nop s = .next s) ∧ (∀ w : Word, decodeWord w = some .nop ↔ w = 0x0000#16) ∧
  ∀ w : Word, 0x0001 ≤ w.toNat → w.toNat ≤ 0x0FFF → w ≠ 0x00E0#16 → w ≠ 0x00EE#16 → decodeWord w = none

/-- 40_control_flow.md R102, R104: JP writes NNN to `pc`, JP_V0 writes NNN plus `V[0]`, never `V[X]`, and the sum is not
reduced (derived for JP_V0: the spec's D4, log 9). -/
def Obligations.JumpsWriteTheirTarget : Prop :=
  ∀ (nnn : Addr12) (s : State),
    (∃ t, exec (.jp nnn) s = .next t ∧ t.pc.toNat = nnn.toNat ∧ Frame { pc := true } s t) ∧
    ∃ t, exec (.jpV0 nnn) s = .next t ∧ t.pc.toNat = nnn.toNat + (s.reg 0).toNat ∧ Frame { pc := true } s t

/-- 40_control_flow.md R103: with fewer than 16 return addresses held, CALL puts the post-fetch `pc` in slot `sp`, raises
`sp` by one and jumps to NNN. -/
def Obligations.CallPushesAndJumps : Prop :=
  ∀ (nnn : Addr12) (s : State), s.sp.val < 16 →
    ∃ t, exec (.call nnn) s = .next t ∧ t.pc.toNat = nnn.toNat ∧ t.sp.val = s.sp.val + 1 ∧
      (∀ k, t.slot k = if k.val = s.sp.val then s.pc else s.slot k) ∧ Frame { pc := true, stack := true } s t

/-- 40_control_flow.md R101: with a return address held, RET takes `pc` from the slot below `sp` and lowers `sp` by one; no
slot changes (derived: the popped slot's value, log 29). -/
def Obligations.RetPopsTheReturnAddress : Prop :=
  ∀ (s : State) (k : Fin 16), s.sp.val = k.val + 1 →
    ∃ t, exec .ret s = .next t ∧ t.pc = s.slot k ∧ t.sp.val = k.val ∧ (∀ j, t.slot j = s.slot j) ∧
      Frame { pc := true, stack := true } s t

/-- 60_exceptions.md R191, R192, R195 (derived: the spec's D5, D15; log 5, 6): CALL with 16 return addresses held takes
STACK_OVERFLOW, RET with none takes STACK_UNDERFLOW; nothing but the mode changes. -/
def Obligations.StackFaultsAreTaken : Prop :=
  ∀ s : State, ¬ isFaulted s →
    (s.sp.val = 16 → ∀ nnn, ∃ t, exec (.call nnn) s = .next t ∧ FaultTaken s t .stackOverflow 16#16) ∧
    (s.sp.val = 0 → ∃ t, exec .ret s = .next t ∧ FaultTaken s t .stackUnderflow 0#16)

/-- 40_control_flow.md R101, R103, the source's example S4: a RET from any state that holds the stack a CALL left returns to
the instruction after the CALL, with the stack pointer as before it. -/
def Obligations.ReturnUndoesCall : Prop :=
  ∀ (nnn : Addr12) (s v : State), s.sp.val < 16 →
    (∀ t, exec (.call nnn) s = .next t → v.sp = t.sp ∧ ∀ k, v.slot k = t.slot k) →
    ∃ u, exec .ret v = .next u ∧ u.pc = s.pc ∧ u.sp = s.sp

/-! ### Skips -/

/-- 41_skips.md R111, R112, stated: SE_IMM skips exactly when `V[X] = NN`, SNE_IMM exactly when not. -/
def Obligations.ImmediateSkipsAreComplementary : Prop :=
  ∀ (x : RegIx) (nn : Byte) (s : State),
    decodeWord (encodeI 0x3000#16 x nn) = some (.seImm x nn) ∧ decodeWord (encodeI 0x4000#16 x nn) = some (.sneImm x nn) ∧
    (∃ t, exec (.seImm x nn) s = .next t ∧
      t.pc = (if s.reg x = nn then s.pc + 2#16 else s.pc) ∧ Frame { pc := true } s t) ∧
    ∃ t, exec (.sneImm x nn) s = .next t ∧
      t.pc = (if s.reg x = nn then s.pc else s.pc + 2#16) ∧ Frame { pc := true } s t

/-- 41_skips.md R113, R114, stated: SE_REG skips exactly when `V[X] = V[Y]`, SNE_REG exactly when not; nibble4 must be 0. -/
def Obligations.RegisterSkipsAreComplementary : Prop :=
  ∀ (x y : RegIx) (s : State),
    decodeWord (encodeR 0x5000#16 x y) = some (.seReg x y) ∧ decodeWord (encodeR 0x9000#16 x y) = some (.sneReg x y) ∧
    (∀ n : BitVec 4, n ≠ 0#4 → decodeWord (encodeR 0x5000#16 x y ||| n.setWidth 16) = none ∧
      decodeWord (encodeR 0x9000#16 x y ||| n.setWidth 16) = none) ∧
    (∃ t, exec (.seReg x y) s = .next t ∧
      t.pc = (if s.reg x = s.reg y then s.pc + 2#16 else s.pc) ∧ Frame { pc := true } s t) ∧
    ∃ t, exec (.sneReg x y) s = .next t ∧
      t.pc = (if s.reg x = s.reg y then s.pc else s.pc + 2#16) ∧ Frame { pc := true } s t

/-- 41_skips.md R115, R116: with a key index in `V[X]`, SKP skips exactly when that key is pressed, SKNP exactly when it is
released. -/
def Obligations.KeySkipsTestTheNamedKey : Prop :=
  ∀ (x : RegIx) (k : Fin 16) (s : State), (s.reg x).toNat = k.val →
    (∃ t, exec (.skp x) s = .next t ∧
      t.pc = (if s.key k = true then s.pc + 2#16 else s.pc) ∧ Frame { pc := true } s t) ∧
    ∃ t, exec (.sknp x) s = .next t ∧
      t.pc = (if s.key k = true then s.pc else s.pc + 2#16) ∧ Frame { pc := true } s t

/-- 60_exceptions.md R209 (derived: the spec's D10, D5; log 14, 5): SKP and SKNP with `V[X]` above 15 take KEY_INDEX with the
whole byte as `info`. -/
def Obligations.KeyIndexFaultsAreTaken : Prop :=
  ∀ (x : RegIx) (s : State), ¬ isFaulted s → 15 < (s.reg x).toNat →
    (∃ t, exec (.skp x) s = .next t ∧ FaultTaken s t .keyIndex (BitVec.ofNat 16 (s.reg x).toNat)) ∧
    ∃ t, exec (.sknp x) s = .next t ∧ FaultTaken s t .keyIndex (BitVec.ofNat 16 (s.reg x).toNat)

/-! ### Load, arithmetic, logic, shift, random -/

/-- 42_load_alu.md R122, stated: `V[X] <- NN`. -/
def Obligations.LdImmLoadsTheImmediate : Prop :=
  ∀ (x : RegIx) (nn : Byte) (s : State), decodeWord (encodeI 0x6000#16 x nn) = some (.ldImm x nn) ∧
    ∃ t, exec (.ldImm x nn) s = .next t ∧ t.reg x = nn ∧ Frame { regs := [x] } s t

/-- 42_load_alu.md R123, stated: `V[X] <- (V[X] + NN) mod 256`, and no flag. -/
def Obligations.AddImmWrapsWithoutFlag : Prop :=
  ∀ (x : RegIx) (nn : Byte) (s : State), decodeWord (encodeI 0x7000#16 x nn) = some (.addImm x nn) ∧
    ∃ t, exec (.addImm x nn) s = .next t ∧ (t.reg x).toNat = ((s.reg x).toNat + nn.toNat) % 256 ∧
      Frame { regs := [x] } s t

/-- 42_load_alu.md R124, stated: `V[X] <- V[Y]`, a plain copy. -/
def Obligations.LdRegCopies : Prop :=
  ∀ (x y : RegIx) (s : State), decodeWord (encodeR 0x8000#16 x y) = some (.ldReg x y) ∧
    ∃ t, exec (.ldReg x y) s = .next t ∧ t.reg x = s.reg y ∧ Frame { regs := [x] } s t

/-- 42_load_alu.md R125, R126, R127, stated: OR, AND, XOR bit by bit; `V[15]` is untouched unless it is `V[X]`. -/
def Obligations.LogicIsBitwiseWithoutFlag : Prop :=
  ∀ (x y : RegIx) (s : State),
    decodeWord (encodeR 0x8001#16 x y) = some (.or x y) ∧ decodeWord (encodeR 0x8002#16 x y) = some (.and x y) ∧
    decodeWord (encodeR 0x8003#16 x y) = some (.xor x y) ∧
    (∃ t, exec (.or x y) s = .next t ∧ Frame { regs := [x] } s t ∧
      ∀ j, (t.reg x).getLsbD j = ((s.reg x).getLsbD j || (s.reg y).getLsbD j)) ∧
    (∃ t, exec (.and x y) s = .next t ∧ Frame { regs := [x] } s t ∧
      ∀ j, (t.reg x).getLsbD j = ((s.reg x).getLsbD j && (s.reg y).getLsbD j)) ∧
    ∃ t, exec (.xor x y) s = .next t ∧ Frame { regs := [x] } s t ∧
      ∀ j, (t.reg x).getLsbD j = ((s.reg x).getLsbD j ^^ (s.reg y).getLsbD j)

/-- 42_load_alu.md R128, stated: the sum modulo 256 to `V[X]`, then 1 to `V[15]` exactly when the sum exceeds 255; with X = 15
the carry stands. -/
def Obligations.AddRegWritesSumAndCarry : Prop :=
  ∀ (x y : RegIx) (s : State), decodeWord (encodeR 0x8004#16 x y) = some (.addReg x y) ∧
    ∃ t, exec (.addReg x y) s = .next t ∧
      t.reg 15 = (if 255 < (s.reg x).toNat + (s.reg y).toNat then 1#8 else 0#8) ∧
      (x ≠ 15 → (t.reg x).toNat = ((s.reg x).toNat + (s.reg y).toNat) % 256) ∧ Frame { regs := [x, 15] } s t

/-- 42_load_alu.md R129, R131, stated: SUB and SUBN, the difference modulo 256 to `V[X]`, then 1 to `V[15]` exactly when no
borrow occurs; with X = 15 the flag stands. -/
def Obligations.SubtractionsWriteDifferenceAndNoBorrow : Prop :=
  ∀ (x y : RegIx) (s : State),
    decodeWord (encodeR 0x8005#16 x y) = some (.sub x y) ∧ decodeWord (encodeR 0x8007#16 x y) = some (.subn x y) ∧
    (∃ t, exec (.sub x y) s = .next t ∧
      t.reg 15 = (if (s.reg y).toNat ≤ (s.reg x).toNat then 1#8 else 0#8) ∧
      (x ≠ 15 → (t.reg x).toNat = ((s.reg x).toNat + 256 - (s.reg y).toNat) % 256) ∧ Frame { regs := [x, 15] } s t) ∧
    ∃ t, exec (.subn x y) s = .next t ∧
      t.reg 15 = (if (s.reg x).toNat ≤ (s.reg y).toNat then 1#8 else 0#8) ∧
      (x ≠ 15 → (t.reg x).toNat = ((s.reg y).toNat + 256 - (s.reg x).toNat) % 256) ∧ Frame { regs := [x, 15] } s t

/-- 42_load_alu.md R130, R132 (derived: with X = 15 the shifted value stands by the spec's D7, log 11; with Y = 15 the old
`V[15]` is shifted by its D6, log 10): SHR and SHL shift `V[Y]` by one place into `V[X]` and write the bit moved out to
`V[15]`. -/
def Obligations.ShiftsMoveVyByOnePlace : Prop :=
  ∀ (x y : RegIx) (s : State),
    (∃ t, exec (.shr x y) s = .next t ∧ (t.reg x).toNat = (s.reg y).toNat / 2 ∧
      (x ≠ 15 → t.reg 15 = if (s.reg y).toNat % 2 = 1 then 1#8 else 0#8) ∧ Frame { regs := [x, 15] } s t) ∧
    ∃ t, exec (.shl x y) s = .next t ∧ (t.reg x).toNat = (s.reg y).toNat * 2 % 256 ∧
      (x ≠ 15 → t.reg 15 = if 128 ≤ (s.reg y).toNat then 1#8 else 0#8) ∧ Frame { regs := [x, 15] } s t

/-- 42_load_alu.md R133 (derived: the unconstrained input is the spec's D13, log 1; the claim holds for every byte drawn):
`V[X]` receives the drawn byte AND NN, so every bit NN lacks is 0, and the draw is used up. -/
def Obligations.RndMasksAFreshByte : Prop :=
  ∀ (x : RegIx) (nn : Byte) (s : State), ∃ t, exec (.rnd x nn) s = .next t ∧
    t.reg x = Config.randomByte s.draws &&& nn ∧ (∀ j, nn.getLsbD j = false → (t.reg x).getLsbD j = false) ∧
    t.draws = s.draws + 1 ∧ Frame { regs := [x], draws := true } s t

/-! ### Index register and memory -/

/-- 43_index_memory.md R140, R141 (derived: that ADD_I does not fault when the sum passes 0x0FFF is the spec's D4, log 9):
LD_I writes NNN to `I`; ADD_I adds `V[X]` modulo 65536 and neither faults nor flags. -/
def Obligations.IndexLoadAndAddWrap : Prop :=
  (∀ (nnn : Addr12) (s : State), decodeWord (encodeA 0xA000#16 nnn) = some (.ldI nnn) ∧
    ∃ t, exec (.ldI nnn) s = .next t ∧ t.i.toNat = nnn.toNat ∧ Frame { i := true } s t) ∧
  ∀ (x : RegIx) (s : State), decodeWord (encodeU 0xF01E#16 x) = some (.addI x) ∧
    ∃ t, exec (.addI x) s = .next t ∧ t.i.toNat = (s.i.toNat + (s.reg x).toNat) % 65536 ∧ Frame { i := true } s t

/-- 43_index_memory.md R142 (derived: for `V[X]` above 15 the literal product is the spec's D11, log 15): `I` becomes five
times `V[X]`. -/
def Obligations.LdFPointsAtTheGlyph : Prop :=
  ∀ (x : RegIx) (s : State), ∃ t, exec (.ldF x) s = .next t ∧ t.i.toNat = 5 * (s.reg x).toNat ∧ Frame { i := true } s t

/-- 43_index_memory.md R143: with the three bytes in range, LD_B stores the hundreds, tens and ones of `V[X]` from `I` up and
changes nothing else. -/
def Obligations.LdBStoresDecimalDigits : Prop :=
  ∀ (x : RegIx) (s : State), s.i.toNat + 2 ≤ 0x0FFF →
    ∃ t, exec (.ldB x) s = .next t ∧
      (Memory.read t.mem s.base).toNat = (s.reg x).toNat / 100 ∧
      (Memory.read t.mem (s.base + 1)).toNat = (s.reg x).toNat / 10 % 10 ∧
      (Memory.read t.mem (s.base + 2)).toNat = (s.reg x).toNat % 10 ∧
      Frame { storeAt := s.base, storeLen := 3 } s t

/-- 43_index_memory.md R144: with the bytes in range, LD_MEM_VX stores `V[0]` to `V[X]` from `I` up and advances `I` by X + 1. -/
def Obligations.LdMemVxStoresTheRegisters : Prop :=
  ∀ (x : RegIx) (s : State), s.i.toNat + x.val ≤ 0x0FFF →
    ∃ t, exec (.ldMemVx x) s = .next t ∧ (∀ k, k ≤ x → Memory.read t.mem (s.base + k.val) = s.reg k) ∧
      t.i.toNat = s.i.toNat + x.val + 1 ∧ Frame { i := true, storeAt := s.base, storeLen := x.val + 1 } s t

/-- 43_index_memory.md R145: with the bytes in range, LD_VX_MEM loads `V[0]` to `V[X]` from `I` up and advances `I` by X + 1. -/
def Obligations.LdVxMemLoadsTheRegisters : Prop :=
  ∀ (x : RegIx) (s : State), s.i.toNat + x.val ≤ 0x0FFF →
    ∃ t, exec (.ldVxMem x) s = .next t ∧ (∀ k, k ≤ x → t.reg k = Memory.read s.mem (s.base + k.val)) ∧
      (∀ k, x < k → t.reg k = s.reg k) ∧ t.i.toNat = s.i.toNat + x.val + 1 ∧
      Frame { regs := regsThrough x, i := true } s t

/-- 60_exceptions.md R194, R195 (derived: the spec's D4, D5, D15; log 9, 5, 6): LD_B, LD_MEM_VX, LD_VX_MEM and DRW with a byte
above 0xFFF take ADDRESS with the lowest such address, and write nothing but the mode. -/
def Obligations.AddressFaultsAreTaken : Prop :=
  ∀ s : State, ¬ isFaulted s →
    (∀ x, 0x0FFF < s.i.toNat + 2 →
      ∃ t, exec (.ldB x) s = .next t ∧ FaultTaken s t .address (BitVec.ofNat 16 (max s.i.toNat 0x1000))) ∧
    (∀ x : RegIx, 0x0FFF < s.i.toNat + x.val →
      (∃ t, exec (.ldMemVx x) s = .next t ∧ FaultTaken s t .address (BitVec.ofNat 16 (max s.i.toNat 0x1000))) ∧
      ∃ t, exec (.ldVxMem x) s = .next t ∧ FaultTaken s t .address (BitVec.ofNat 16 (max s.i.toNat 0x1000))) ∧
    ∀ (x y : RegIx) (n : Nat), 0 < n → 0x0FFF < s.i.toNat + n - 1 →
      ∃ t, exec (.drw x y n) s = .next t ∧ FaultTaken s t .address (BitVec.ofNat 16 (max s.i.toNat 0x1000))

/-! ### Display -/

/-- 44_display.md R150, stated: CLS sets every cell to 0 and changes nothing else. -/
def Obligations.ClsClearsEveryCell : Prop :=
  decodeWord 0x00E0#16 = some .cls ∧
  ∀ s : State, ∃ t, exec .cls s = .next t ∧ (∀ x y, t.pixel x y = false) ∧ Frame { display := true } s t

/-- 44_display.md R151 in closed form (derived: bit 7 leftmost is the spec's D20, log 3; the old `V[15]` as a coordinate is its
D6, log 10): a cell is toggled exactly when a set sprite bit falls on it; `V[15]` becomes 1 exactly when such a cell was
lit, else 0; `n = 0` draws nothing and needs no byte in range. -/
def Obligations.DrwTogglesTheCoveredCells : Prop :=
  ∀ (x y : RegIx) (n : Nat) (s : State), (Instr.drw x y n).WellFormed → (n = 0 ∨ s.i.toNat + n - 1 ≤ 0x0FFF) →
    ∃ t, exec (.drw x y n) s = .next t ∧
      (∀ px py, SpriteCovers s (s.reg x).toNat (s.reg y).toNat n px py → t.pixel px py = !s.pixel px py) ∧
      (∀ px py, ¬ SpriteCovers s (s.reg x).toNat (s.reg y).toNat n px py → t.pixel px py = s.pixel px py) ∧
      ((∃ px py, SpriteCovers s (s.reg x).toNat (s.reg y).toNat n px py ∧ s.pixel px py = true) → t.reg 15 = 1#8) ∧
      ((∀ px py, SpriteCovers s (s.reg x).toNat (s.reg y).toNat n px py → s.pixel px py = false) → t.reg 15 = 0#8) ∧
      Frame { regs := [15], display := true } s t

/-- 44_display.md R153 (derived from R151): the same DRW a second time, with the same coordinates, `I` and memory, restores
the display exactly. -/
def Obligations.DrwTwiceRestoresTheDisplay : Prop :=
  ∀ (x y : RegIx) (n : Nat) (s t v : State), (Instr.drw x y n).WellFormed → (n = 0 ∨ s.i.toNat + n - 1 ≤ 0x0FFF) →
    exec (.drw x y n) s = .next t → (∀ px py, v.pixel px py = t.pixel px py) → v.reg x = s.reg x → v.reg y = s.reg y →
    v.i = s.i → (∀ a, Memory.read v.mem a = Memory.read s.mem a) →
    ∃ u, exec (.drw x y n) v = .next u ∧ ∀ px py, u.pixel px py = s.pixel px py

/-! ### Timers and keys -/

/-- 45_timers_keys.md R160, R163, R164, stated: `V[X] <- DT`, `DT <- V[X]`, `ST <- V[X]`; the sound output is active after the
last exactly when the value is not 0. -/
def Obligations.TimerInstructionsCopyTheByte : Prop :=
  ∀ (x : RegIx) (s : State),
    decodeWord (encodeU 0xF007#16 x) = some (.ldVxDt x) ∧ decodeWord (encodeU 0xF015#16 x) = some (.ldDtVx x) ∧
    decodeWord (encodeU 0xF018#16 x) = some (.ldStVx x) ∧
    (∃ t, exec (.ldVxDt x) s = .next t ∧ t.reg x = s.dt ∧ Frame { regs := [x] } s t) ∧
    (∃ t, exec (.ldDtVx x) s = .next t ∧ t.dt = s.reg x ∧ Frame { dt := true } s t) ∧
    ∃ t, exec (.ldStVx x) s = .next t ∧ t.st = s.reg x ∧ (soundActive t = true ↔ s.reg x ≠ 0#8) ∧
      Frame { st := true } s t

/-- 45_timers_keys.md R161 (derived: that a key already held is not taken at once is the spec's D8, log 12): LD_VX_K enters the
wait for register X and writes nothing else, `V[X]` included; the step reports AwaitingKey. -/
def Obligations.LdVxKEntersTheWait : Prop :=
  ∀ (x : RegIx) (s : State), ∃ t, exec (.ldVxK x) s = .next t ∧ t.mode = .awaitingKey x ∧
    stepResult t = .awaitingKey ∧ Frame { mode := true } s t

/-! ### Rules about the whole machine -/

/-- 10_state.md R27, 45_timers_keys.md R165: no instruction writes a key flag, and no step does. -/
def Obligations.NoInstructionWritesKeys : Prop :=
  (∀ (i : Instr) (s t : State), exec i s = .next t → ∀ k, t.key k = s.key k) ∧
  ∀ s t : State, step s = .next t → ∀ k, t.key k = s.key k

/-- 44_display.md R153 (derived from R151): only CLS, DRW and `reset` change the display. Of the instructions only CLS and
DRW do; so does no step but one that runs one of them, a step of the key wait, of Faulted mode or with a fetch or decode
fault among the rest; and no other operation but `reset`. -/
def Obligations.OnlyClsDrwAndResetChangeTheDisplay : Prop :=
  (∀ (i : Instr) (s t : State), exec i s = .next t → i.name ∉ ["CLS", "DRW"] → ∀ x y, t.pixel x y = s.pixel x y) ∧
  (∀ s t : State, step s = .next t → (∀ i, StepRuns s i → i.name ∉ ["CLS", "DRW"]) →
    ∀ x y, t.pixel x y = s.pixel x y) ∧
  ∀ (op : HostOp) (s t : State), op ≠ .reset → op ≠ .step → applyOp op s = .next t →
    ∀ x y, t.pixel x y = s.pixel x y

/-- 20_memory.md R55: of the instructions, only LD_B and LD_MEM_VX write memory; so does no step but one that runs one of
them; and of the other operations only `load` and `reset`. -/
def Obligations.OnlyStoresWriteMemory : Prop :=
  (∀ (i : Instr) (s t : State), exec i s = .next t → i.name ∉ ["LD_B", "LD_MEM_VX"] →
    ∀ a, Memory.read t.mem a = Memory.read s.mem a) ∧
  (∀ s t : State, step s = .next t → (∀ i, StepRuns s i → i.name ∉ ["LD_B", "LD_MEM_VX"]) →
    ∀ a, Memory.read t.mem a = Memory.read s.mem a) ∧
  ∀ (op : HostOp) (s t : State), op ≠ .reset → op ≠ .step → (∀ bytes, op ≠ .load bytes) → applyOp op s = .next t →
    ∀ a, Memory.read t.mem a = Memory.read s.mem a

/-- 10_state.md R25, R26, 60_exceptions.md R200, 70_reset_and_hazards.md R220: of the instructions, only CALL and RET write
the call stack, only LD_DT_VX writes `DT` and only LD_ST_VX `ST`; so does no step but one that runs one of them; and of
the other operations only `reset` writes the call stack, only `tick_timers` and `reset` the timers. -/
def Obligations.StackAndTimersHaveTheirOwnWriters : Prop :=
  (∀ (i : Instr) (s t : State), exec i s = .next t →
    (i.name ∉ ["CALL", "RET"] → t.sp = s.sp ∧ ∀ k, t.slot k = s.slot k) ∧
    (i.name ≠ "LD_DT_VX" → t.dt = s.dt) ∧ (i.name ≠ "LD_ST_VX" → t.st = s.st)) ∧
  (∀ s t : State, step s = .next t →
    ((∀ i, StepRuns s i → i.name ∉ ["CALL", "RET"]) → t.sp = s.sp ∧ ∀ k, t.slot k = s.slot k) ∧
    ((∀ i, StepRuns s i → i.name ≠ "LD_DT_VX") → t.dt = s.dt) ∧
    ((∀ i, StepRuns s i → i.name ≠ "LD_ST_VX") → t.st = s.st)) ∧
  ∀ (op : HostOp) (s t : State), op ≠ .reset → op ≠ .step → applyOp op s = .next t →
    (t.sp = s.sp ∧ ∀ k, t.slot k = s.slot k) ∧ (op ≠ .tickTimers → t.dt = s.dt ∧ t.st = s.st)

/-- 10_state.md R21, R22: an instruction writes no V register but the ones its rule names; `V[15]` is among them only for the
six flag writers and where it is X, or the last register LD_VX_MEM loads. -/
def Obligations.OnlyNamedRegistersAreWritten : Prop :=
  ∀ (i : Instr) (s t : State), exec i s = .next t → ∀ r, r ∉ mayWriteRegs i → t.reg r = s.reg r

/-- 10_state.md R22: the flag value is always 0 or 1 (SHR and SHL with X = 15 leave the shifted value there, not the flag:
the spec's D7, log 11). -/
def Obligations.FlagIsZeroOrOne : Prop :=
  ∀ (x y : RegIx) (n : Nat) (s t : State),
    (exec (.addReg x y) s = .next t ∨ exec (.sub x y) s = .next t ∨ exec (.subn x y) s = .next t ∨
      (x ≠ 15 ∧ (exec (.shr x y) s = .next t ∨ exec (.shl x y) s = .next t)) ∨
      (exec (.drw x y n) s = .next t ∧ (n = 0 ∨ s.i.toNat + n - 1 ≤ 0x0FFF))) →
    t.reg 15 = 0#8 ∨ t.reg 15 = 1#8

/-- The start state meets the invariant (10_state.md R23, R35). -/
def Obligations.ResetMeetsTheInvariant : Prop := StateInv State.reset

/-- 10_state.md R23, 40_control_flow.md R101 (derived there): every step keeps memory canonical, `pc` at most 0x10FE and every
return address at most 0x1000, so that no addition to `pc` ever wraps. -/
def Obligations.StepKeepsTheInvariant : Prop :=
  ∀ s t : State, StateInv s → step s = .next t → StateInv t

/-- 00_scope.md R7, 10_state.md R33: every serial order of the seven operations keeps the invariant, from any state that
meets it. -/
def Obligations.EveryRunOfOperationsKeepsTheInvariant : Prop :=
  ∀ (ops : List HostOp) (s t : State), StateInv s → runOps ops s = .next t → StateInv t

/-- 70_reset_and_hazards.md R228 (derived: the spec's D25, log 23): from the end of a run as the spec suggests it, no step
changes any state. -/
def Obligations.EndedRunStaysPut : Prop := ∀ s : State, runEnded s → step s = .next s

/-! ### The host's operations -/

/-- 10_state.md R35, 70_reset_and_hazards.md R220, R221 (derived: memory above the glyphs and the mode are the spec's D12, log 4,
the glyph bytes its D19, log 2): construction and `reset`, from any state, leave the start state. -/
def Obligations.ResetLeavesTheStartState : Prop :=
  IsStartState State.reset ∧ glyphTable.length = 80 ∧
  ∀ s : State, ∃ t, applyOp .reset s = .next t ∧ IsStartState t ∧ soundActive t = false

/-- 50_host_interface.md R173 (derived: that nothing else is written is the spec's D22, log 21): an image of at most 3584 bytes is
copied to 0x200 upward and nothing else changes. -/
def Obligations.LoadCopiesTheImage : Prop :=
  ∀ (bytes : List Byte) (s : State), bytes.length ≤ 3584 →
    (hostLoad bytes s).2 = .ok ∧
    (∀ k (h : k < bytes.length), Memory.read (hostLoad bytes s).1.mem (0x200 + k) = bytes[k]) ∧
    Frame { storeAt := 0x200, storeLen := bytes.length } s (hostLoad bytes s).1

/-- 50_host_interface.md R181 (derived: the spec's D16, log 16): an image too large and a key index out of range are reported,
write nothing but the mode, and keep an earlier fault record. -/
def Obligations.HostMisuseIsReportedAndTerminal : Prop :=
  (∀ (bytes : List Byte) (s : State), 3584 < bytes.length →
    (hostLoad bytes s).2 = .error .loadTooLarge (BitVec.ofNat 16 (min bytes.length 0xFFFF)) ∧
    (¬ isFaulted s → FaultTaken s (hostLoad bytes s).1 .loadTooLarge (BitVec.ofNat 16 (min bytes.length 0xFFFF))) ∧
    (isFaulted s → (hostLoad bytes s).1 = s)) ∧
  ∀ (index : Nat) (pressed : Bool) (s : State), 15 < index →
    (hostSetKey index pressed s).2 = .error .hostKeyIndex (BitVec.ofNat 16 index) ∧
    (¬ isFaulted s → FaultTaken s (hostSetKey index pressed s).1 .hostKeyIndex (BitVec.ofNat 16 index)) ∧
    (isFaulted s → (hostSetKey index pressed s).1 = s)

/-- 50_host_interface.md R174 (derived: that it acts so in every mode is the spec's D18, log 18): `set_key` writes the one
flag it names and nothing else, in every mode. -/
def Obligations.SetKeyWritesOneFlag : Prop :=
  ∀ (k : Fin 16) (pressed : Bool) (s : State),
    (hostSetKey k.val pressed s).2 = .ok ∧
    (∀ j, (hostSetKey k.val pressed s).1.key j = if j = k then pressed else s.key j) ∧
    Frame { keys := true } s (hostSetKey k.val pressed s).1 ∧
    (s.key k = pressed → (hostSetKey k.val pressed s).1 = s)

/-- 60_exceptions.md R200 (derived: that the tick acts alike in every mode is the spec's D18, log 18): one tick lowers each
positive timer by 1, leaves a timer at 0, touches nothing else and does not read the mode. -/
def Obligations.TickLowersPositiveTimers : Prop :=
  ∀ s : State,
    ((tickTimers s).dt.toNat = if 0 < s.dt.toNat then s.dt.toNat - 1 else 0) ∧
    ((tickTimers s).st.toNat = if 0 < s.st.toNat then s.st.toNat - 1 else 0) ∧
    Frame { dt := true, st := true } s (tickTimers s) ∧
    ∀ m : Mode, tickTimers { s with mode := m } = { tickTimers s with mode := m }

/-- 50_host_interface.md R176, stated: the sound output is active exactly while `ST` is positive; it falls when a tick takes
`ST` from 1 to 0, when LD_ST_VX writes 0, and at `reset`; it rises when LD_ST_VX writes a non-zero value. -/
def Obligations.SoundIsActiveWhileStIsPositive : Prop :=
  ∀ s : State, (soundActive s = true ↔ 0 < s.st.toNat) ∧
    (s.st = 1#8 → soundActive s = true ∧ soundActive (tickTimers s) = false) ∧
    soundActive (hostReset s) = false ∧
    ∀ x, ∃ t, exec (.ldStVx x) s = .next t ∧ (soundActive t = true ↔ s.reg x ≠ 0#8)
end

