-- ==== Sys2Proof/Laws/Memory.lean ====
section
/-! SUPPORT. The laws of memory: a read after a write, at every address; every operation keeps the canonical form; two
canonical memories that read alike are equal. -/

namespace Sys2Proof.Machine

/-! ### Reads -/

theorem Memory.read_put (m : Memory) (a : Nat) (b : Byte) (a' : Nat) :
    Memory.read (Memory.put m a b) a' = if a' = a then b else Memory.read m a' := by
  induction m with
  | nil => simp only [Memory.put, Memory.read, eq_comm]
  | cons c m ih =>
    obtain ⟨k, c⟩ := c
    simp only [Memory.put]
    split
    · simp only [Memory.read, eq_comm (a := a)]
    · split
      · rename_i h; subst h
        simp only [Memory.read, eq_comm (a := k)]
        split <;> rfl
      · rename_i h1 h2
        simp only [Memory.read, ih]
        by_cases h : k = a'
        · have h3 : a' ≠ a := by omega
          simp [h, h3]
        · simp [h]

theorem Memory.read_unlist (m : Memory) (a a' : Nat) :
    Memory.read (Memory.unlist m a) a' = if a' = a then unlisted a else Memory.read m a' := by
  induction m with
  | nil => simp only [Memory.unlist, List.filter_nil, Memory.read]; split <;> simp_all
  | cons c m ih =>
    obtain ⟨k, c⟩ := c
    simp only [Memory.unlist] at ih
    by_cases h : k = a
    · subst h
      simp only [Memory.unlist, ne_eq, not_true_eq_false, decide_false, Bool.false_eq_true, not_false_eq_true,
        List.filter_cons_of_neg, ih, Memory.read]
      by_cases h2 : k = a' <;> simp [h2]
    · simp only [Memory.unlist, ne_eq, h, not_false_eq_true, decide_true, List.filter_cons_of_pos, Memory.read, ih]
      by_cases h2 : k = a'
      · subst h2; simp [h]
      · simp [h2]

/-- A write below 4096 is read back, and every other address reads as before (20_memory.md R55, R57). -/
theorem Memory.read_write (m : Memory) (a : Nat) (b : Byte) (a' : Nat) :
    Memory.read (Memory.write m a b) a' = if a' = a ∧ a < 4096 then b else Memory.read m a' := by
  unfold Memory.write
  by_cases h : a < 4096
  · simp only [h, if_true, and_true]
    split
    · rename_i hb; rw [Memory.read_unlist, ← hb]
    · rw [Memory.read_put]
  · simp [h]

/-- Bytes written from `a` up are read back in order, and every other address reads as before (R57). -/
theorem Memory.read_writeBytes (bs : List Byte) (m : Memory) (a : Nat) (a' : Nat) (h : a + bs.length ≤ 4096) :
    Memory.read (Memory.writeBytes m a bs) a' =
      if a ≤ a' ∧ a' < a + bs.length then bs.getD (a' - a) 0#8 else Memory.read m a' := by
  induction bs generalizing m a with
  | nil => simp [Memory.writeBytes]
  | cons b bs ih =>
    simp only [List.length_cons] at h
    rw [Memory.writeBytes, ih (Memory.write m a b) (a + 1) (by omega), Memory.read_write, List.length_cons]
    by_cases h1 : a' = a
    · subst h1
      have : a' < 4096 := by omega
      simp [this]
    · by_cases h2 : a + 1 ≤ a' ∧ a' < a + 1 + bs.length
      · obtain ⟨n, hn⟩ : ∃ n, a' = a + 1 + n := ⟨a' - (a + 1), by omega⟩
        have h3 : a' - a = n + 1 := by omega
        have h4 : a' - (a + 1) = n := by omega
        rw [if_pos h2, if_pos (by omega), h3, h4, List.getD_cons_succ]
      · rw [if_neg h2, if_neg (by omega), if_neg (by omega)]

theorem Memory.readBytes_length (m : Memory) (a n : Nat) : (Memory.readBytes m a n).length = n := by
  simp [Memory.readBytes]

theorem Memory.readBytes_getElem (m : Memory) (a n k : Nat) (h : k < (Memory.readBytes m a n).length) :
    (Memory.readBytes m a n)[k] = Memory.read m (a + k) := by
  simp [Memory.readBytes]

/-! ### The canonical form -/

theorem Memory.wfFrom_mono {lo lo' : Nat} (h : lo' ≤ lo) {m : Memory} (hm : Memory.wfFrom lo m = true) :
    Memory.wfFrom lo' m = true := by
  cases m with
  | nil => rfl
  | cons c m =>
    obtain ⟨k, c⟩ := c
    simp only [Memory.wfFrom, Bool.and_eq_true, decide_eq_true_eq] at hm ⊢
    exact ⟨⟨⟨by omega, hm.1.1.2⟩, hm.1.2⟩, hm.2⟩

theorem Memory.wfFrom_put {lo : Nat} {m : Memory} {a : Nat} {b : Byte} (hm : Memory.wfFrom lo m = true) (hlo : lo ≤ a)
    (ha : a < 4096) (hb : b ≠ unlisted a) : Memory.wfFrom lo (Memory.put m a b) = true := by
  induction m generalizing lo with
  | nil => simp [Memory.put, Memory.wfFrom, hlo, ha, hb]
  | cons c m ih =>
    obtain ⟨k, c⟩ := c
    simp only [Memory.wfFrom, Bool.and_eq_true, decide_eq_true_eq] at hm
    obtain ⟨⟨⟨h1, h2⟩, h3⟩, h4⟩ := hm
    simp only [Memory.put]
    split
    · rename_i h
      simp only [Memory.wfFrom, Bool.and_eq_true, decide_eq_true_eq]
      exact ⟨⟨⟨hlo, ha⟩, hb⟩, ⟨⟨⟨by omega, h2⟩, h3⟩, h4⟩⟩
    · split
      · rename_i h; subst h
        simp only [Memory.wfFrom, Bool.and_eq_true, decide_eq_true_eq]
        exact ⟨⟨⟨hlo, ha⟩, hb⟩, h4⟩
      · simp only [Memory.wfFrom, Bool.and_eq_true, decide_eq_true_eq]
        exact ⟨⟨⟨h1, h2⟩, h3⟩, ih h4 (by omega)⟩

theorem Memory.wfFrom_unlist {lo : Nat} {m : Memory} (a : Nat) (hm : Memory.wfFrom lo m = true) :
    Memory.wfFrom lo (Memory.unlist m a) = true := by
  induction m generalizing lo with
  | nil => rfl
  | cons c m ih =>
    obtain ⟨k, c⟩ := c
    simp only [Memory.wfFrom, Bool.and_eq_true, decide_eq_true_eq] at hm
    obtain ⟨⟨⟨h1, h2⟩, h3⟩, h4⟩ := hm
    have ih' := ih h4
    simp only [Memory.unlist] at ih' ⊢
    by_cases h : k = a
    · simp only [h, ne_eq, not_true_eq_false, decide_false, Bool.false_eq_true, not_false_eq_true,
        List.filter_cons_of_neg]
      rw [h] at ih'
      exact Memory.wfFrom_mono (by omega) ih'
    · simp only [ne_eq, h, not_false_eq_true, decide_true, List.filter_cons_of_pos, Memory.wfFrom, Bool.and_eq_true,
        decide_eq_true_eq]
      exact ⟨⟨⟨h1, h2⟩, h3⟩, ih'⟩

/-- One write keeps the canonical form. -/
theorem Memory.wf_write {m : Memory} (a : Nat) (b : Byte) (hm : Memory.wf m = true) :
    Memory.wf (Memory.write m a b) = true := by
  unfold Memory.write
  split
  · rename_i ha
    split
    · exact Memory.wfFrom_unlist a hm
    · rename_i hb; exact Memory.wfFrom_put hm (Nat.zero_le a) ha hb
  · exact hm

/-- Writing a run of bytes keeps the canonical form. -/
theorem Memory.wf_writeBytes (bs : List Byte) {m : Memory} (a : Nat) (hm : Memory.wf m = true) :
    Memory.wf (Memory.writeBytes m a bs) = true := by
  induction bs generalizing m a with
  | nil => exact hm
  | cons b bs ih => exact ih (a + 1) (Memory.wf_write a b hm)

/-- Reset memory has the canonical form. -/
theorem Memory.wf_reset : Memory.wf State.reset.mem = true := rfl

/-- Reading below the first address of the form gives the unlisted byte. -/
theorem Memory.read_of_lt {lo : Nat} {m : Memory} (hm : Memory.wfFrom lo m = true) {a : Nat} (h : a < lo) :
    Memory.read m a = unlisted a := by
  induction m generalizing lo with
  | nil => rfl
  | cons c m ih =>
    obtain ⟨k, c⟩ := c
    simp only [Memory.wfFrom, Bool.and_eq_true, decide_eq_true_eq] at hm
    rw [Memory.read, if_neg (by omega)]
    exact ih hm.2 (by omega)

/-- Equal memories are equal data: two canonical memories that read alike at every address are the same list. -/
theorem Memory.ext_of_wfFrom {lo : Nat} {m m' : Memory} (hm : Memory.wfFrom lo m = true)
    (hm' : Memory.wfFrom lo m' = true) (h : ∀ a, Memory.read m a = Memory.read m' a) : m = m' := by
  induction m generalizing lo m' with
  | nil =>
    cases m' with
    | nil => rfl
    | cons c m' =>
      obtain ⟨k, c⟩ := c
      simp only [Memory.wfFrom, Bool.and_eq_true, decide_eq_true_eq] at hm'
      have := h k
      simp only [Memory.read, if_true] at this
      exact absurd this.symm hm'.1.2
  | cons c m ih =>
    obtain ⟨k, c⟩ := c
    have hw := hm
    simp only [Memory.wfFrom, Bool.and_eq_true, decide_eq_true_eq] at hw
    cases m' with
    | nil =>
      have := h k
      simp only [Memory.read, if_true] at this
      exact absurd this hw.1.2
    | cons c' m' =>
      obtain ⟨k', c'⟩ := c'
      have hw' := hm'
      simp only [Memory.wfFrom, Bool.and_eq_true, decide_eq_true_eq] at hw'
      have hk : k = k' := by
        by_contra hne
        rcases Nat.lt_or_gt_of_ne hne with hlt | hlt
        · have h1 := h k
          rw [Memory.read, if_pos rfl, Memory.read, if_neg (by omega), Memory.read_of_lt hw'.2 (by omega)] at h1
          exact hw.1.2 h1
        · have h1 := h k'
          rw [Memory.read, if_neg (by omega), Memory.read_of_lt hw.2 (by omega), Memory.read, if_pos rfl] at h1
          exact hw'.1.2 h1.symm
      subst hk
      have hc : c = c' := by
        have h1 := h k
        simpa only [Memory.read, if_true] using h1
      subst hc
      congr 1
      refine ih hw.2 hw'.2 (fun a => ?_)
      by_cases ha : k = a
      · subst ha
        rw [Memory.read_of_lt hw.2 (by omega), Memory.read_of_lt hw'.2 (by omega)]
      · have h1 := h a
        simpa only [Memory.read, if_neg ha] using h1

end Sys2Proof.Machine
end

