-- ==== Sys2Proof/Laws/State.lean ====
section
/-! SUPPORT. What each named update of the state leaves in each field and view, all by definition: later proofs rewrite
with these and unfold no record update. -/

namespace Sys2Proof.Machine

/-! ### `s.setReg x b` -/

@[simp] theorem State.setReg_pc (s : State) (x : RegIx) (b : Byte) : (s.setReg x b).pc = s.pc := rfl
@[simp] theorem State.setReg_mem (s : State) (x : RegIx) (b : Byte) : (s.setReg x b).mem = s.mem := rfl
@[simp] theorem State.setReg_display (s : State) (x : RegIx) (b : Byte) : (s.setReg x b).display = s.display := rfl
@[simp] theorem State.setReg_v (s : State) (x : RegIx) (b : Byte) : (s.setReg x b).v = s.v.set x.val b := rfl
@[simp] theorem State.setReg_i (s : State) (x : RegIx) (b : Byte) : (s.setReg x b).i = s.i := rfl
@[simp] theorem State.setReg_stack (s : State) (x : RegIx) (b : Byte) : (s.setReg x b).stack = s.stack := rfl
@[simp] theorem State.setReg_sp (s : State) (x : RegIx) (b : Byte) : (s.setReg x b).sp = s.sp := rfl
@[simp] theorem State.setReg_dt (s : State) (x : RegIx) (b : Byte) : (s.setReg x b).dt = s.dt := rfl
@[simp] theorem State.setReg_st (s : State) (x : RegIx) (b : Byte) : (s.setReg x b).st = s.st := rfl
@[simp] theorem State.setReg_keys (s : State) (x : RegIx) (b : Byte) : (s.setReg x b).keys = s.keys := rfl
@[simp] theorem State.setReg_mode (s : State) (x : RegIx) (b : Byte) : (s.setReg x b).mode = s.mode := rfl
@[simp] theorem State.setReg_draws (s : State) (x : RegIx) (b : Byte) : (s.setReg x b).draws = s.draws := rfl
@[simp] theorem State.setReg_slot (s : State) (x : RegIx) (b : Byte) (k : Fin 16) : (s.setReg x b).slot k = s.slot k := rfl
@[simp] theorem State.setReg_key (s : State) (x : RegIx) (b : Byte) (k : Fin 16) : (s.setReg x b).key k = s.key k := rfl
@[simp] theorem State.setReg_pixel (s : State) (x : RegIx) (b : Byte) (c : Fin 64) (y : Fin 32) : (s.setReg x b).pixel c y = s.pixel c y := rfl

/-! ### `s.setRegs w` -/

@[simp] theorem State.setRegs_pc (s : State) (w : Vector Byte 16) : (s.setRegs w).pc = s.pc := rfl
@[simp] theorem State.setRegs_mem (s : State) (w : Vector Byte 16) : (s.setRegs w).mem = s.mem := rfl
@[simp] theorem State.setRegs_display (s : State) (w : Vector Byte 16) : (s.setRegs w).display = s.display := rfl
@[simp] theorem State.setRegs_v (s : State) (w : Vector Byte 16) : (s.setRegs w).v = w := rfl
@[simp] theorem State.setRegs_i (s : State) (w : Vector Byte 16) : (s.setRegs w).i = s.i := rfl
@[simp] theorem State.setRegs_stack (s : State) (w : Vector Byte 16) : (s.setRegs w).stack = s.stack := rfl
@[simp] theorem State.setRegs_sp (s : State) (w : Vector Byte 16) : (s.setRegs w).sp = s.sp := rfl
@[simp] theorem State.setRegs_dt (s : State) (w : Vector Byte 16) : (s.setRegs w).dt = s.dt := rfl
@[simp] theorem State.setRegs_st (s : State) (w : Vector Byte 16) : (s.setRegs w).st = s.st := rfl
@[simp] theorem State.setRegs_keys (s : State) (w : Vector Byte 16) : (s.setRegs w).keys = s.keys := rfl
@[simp] theorem State.setRegs_mode (s : State) (w : Vector Byte 16) : (s.setRegs w).mode = s.mode := rfl
@[simp] theorem State.setRegs_draws (s : State) (w : Vector Byte 16) : (s.setRegs w).draws = s.draws := rfl
@[simp] theorem State.setRegs_slot (s : State) (w : Vector Byte 16) (k : Fin 16) : (s.setRegs w).slot k = s.slot k := rfl
@[simp] theorem State.setRegs_key (s : State) (w : Vector Byte 16) (k : Fin 16) : (s.setRegs w).key k = s.key k := rfl
@[simp] theorem State.setRegs_pixel (s : State) (w : Vector Byte 16) (x : Fin 64) (y : Fin 32) : (s.setRegs w).pixel x y = s.pixel x y := rfl

/-! ### `s.setPc w` -/

@[simp] theorem State.setPc_pc (s : State) (w : Word) : (s.setPc w).pc = w := rfl
@[simp] theorem State.setPc_mem (s : State) (w : Word) : (s.setPc w).mem = s.mem := rfl
@[simp] theorem State.setPc_display (s : State) (w : Word) : (s.setPc w).display = s.display := rfl
@[simp] theorem State.setPc_v (s : State) (w : Word) : (s.setPc w).v = s.v := rfl
@[simp] theorem State.setPc_i (s : State) (w : Word) : (s.setPc w).i = s.i := rfl
@[simp] theorem State.setPc_stack (s : State) (w : Word) : (s.setPc w).stack = s.stack := rfl
@[simp] theorem State.setPc_sp (s : State) (w : Word) : (s.setPc w).sp = s.sp := rfl
@[simp] theorem State.setPc_dt (s : State) (w : Word) : (s.setPc w).dt = s.dt := rfl
@[simp] theorem State.setPc_st (s : State) (w : Word) : (s.setPc w).st = s.st := rfl
@[simp] theorem State.setPc_keys (s : State) (w : Word) : (s.setPc w).keys = s.keys := rfl
@[simp] theorem State.setPc_mode (s : State) (w : Word) : (s.setPc w).mode = s.mode := rfl
@[simp] theorem State.setPc_draws (s : State) (w : Word) : (s.setPc w).draws = s.draws := rfl
@[simp] theorem State.setPc_reg (s : State) (w : Word) (r : RegIx) : (s.setPc w).reg r = s.reg r := rfl
@[simp] theorem State.setPc_slot (s : State) (w : Word) (k : Fin 16) : (s.setPc w).slot k = s.slot k := rfl
@[simp] theorem State.setPc_key (s : State) (w : Word) (k : Fin 16) : (s.setPc w).key k = s.key k := rfl
@[simp] theorem State.setPc_pixel (s : State) (w : Word) (x : Fin 64) (y : Fin 32) : (s.setPc w).pixel x y = s.pixel x y := rfl

/-! ### `s.setI w` -/

@[simp] theorem State.setI_pc (s : State) (w : Word) : (s.setI w).pc = s.pc := rfl
@[simp] theorem State.setI_mem (s : State) (w : Word) : (s.setI w).mem = s.mem := rfl
@[simp] theorem State.setI_display (s : State) (w : Word) : (s.setI w).display = s.display := rfl
@[simp] theorem State.setI_v (s : State) (w : Word) : (s.setI w).v = s.v := rfl
@[simp] theorem State.setI_i (s : State) (w : Word) : (s.setI w).i = w := rfl
@[simp] theorem State.setI_stack (s : State) (w : Word) : (s.setI w).stack = s.stack := rfl
@[simp] theorem State.setI_sp (s : State) (w : Word) : (s.setI w).sp = s.sp := rfl
@[simp] theorem State.setI_dt (s : State) (w : Word) : (s.setI w).dt = s.dt := rfl
@[simp] theorem State.setI_st (s : State) (w : Word) : (s.setI w).st = s.st := rfl
@[simp] theorem State.setI_keys (s : State) (w : Word) : (s.setI w).keys = s.keys := rfl
@[simp] theorem State.setI_mode (s : State) (w : Word) : (s.setI w).mode = s.mode := rfl
@[simp] theorem State.setI_draws (s : State) (w : Word) : (s.setI w).draws = s.draws := rfl
@[simp] theorem State.setI_reg (s : State) (w : Word) (r : RegIx) : (s.setI w).reg r = s.reg r := rfl
@[simp] theorem State.setI_slot (s : State) (w : Word) (k : Fin 16) : (s.setI w).slot k = s.slot k := rfl
@[simp] theorem State.setI_key (s : State) (w : Word) (k : Fin 16) : (s.setI w).key k = s.key k := rfl
@[simp] theorem State.setI_pixel (s : State) (w : Word) (x : Fin 64) (y : Fin 32) : (s.setI w).pixel x y = s.pixel x y := rfl

/-! ### `s.setDt b` -/

@[simp] theorem State.setDt_pc (s : State) (b : Byte) : (s.setDt b).pc = s.pc := rfl
@[simp] theorem State.setDt_mem (s : State) (b : Byte) : (s.setDt b).mem = s.mem := rfl
@[simp] theorem State.setDt_display (s : State) (b : Byte) : (s.setDt b).display = s.display := rfl
@[simp] theorem State.setDt_v (s : State) (b : Byte) : (s.setDt b).v = s.v := rfl
@[simp] theorem State.setDt_i (s : State) (b : Byte) : (s.setDt b).i = s.i := rfl
@[simp] theorem State.setDt_stack (s : State) (b : Byte) : (s.setDt b).stack = s.stack := rfl
@[simp] theorem State.setDt_sp (s : State) (b : Byte) : (s.setDt b).sp = s.sp := rfl
@[simp] theorem State.setDt_dt (s : State) (b : Byte) : (s.setDt b).dt = b := rfl
@[simp] theorem State.setDt_st (s : State) (b : Byte) : (s.setDt b).st = s.st := rfl
@[simp] theorem State.setDt_keys (s : State) (b : Byte) : (s.setDt b).keys = s.keys := rfl
@[simp] theorem State.setDt_mode (s : State) (b : Byte) : (s.setDt b).mode = s.mode := rfl
@[simp] theorem State.setDt_draws (s : State) (b : Byte) : (s.setDt b).draws = s.draws := rfl
@[simp] theorem State.setDt_reg (s : State) (b : Byte) (r : RegIx) : (s.setDt b).reg r = s.reg r := rfl
@[simp] theorem State.setDt_slot (s : State) (b : Byte) (k : Fin 16) : (s.setDt b).slot k = s.slot k := rfl
@[simp] theorem State.setDt_key (s : State) (b : Byte) (k : Fin 16) : (s.setDt b).key k = s.key k := rfl
@[simp] theorem State.setDt_pixel (s : State) (b : Byte) (x : Fin 64) (y : Fin 32) : (s.setDt b).pixel x y = s.pixel x y := rfl

/-! ### `s.setSt b` -/

@[simp] theorem State.setSt_pc (s : State) (b : Byte) : (s.setSt b).pc = s.pc := rfl
@[simp] theorem State.setSt_mem (s : State) (b : Byte) : (s.setSt b).mem = s.mem := rfl
@[simp] theorem State.setSt_display (s : State) (b : Byte) : (s.setSt b).display = s.display := rfl
@[simp] theorem State.setSt_v (s : State) (b : Byte) : (s.setSt b).v = s.v := rfl
@[simp] theorem State.setSt_i (s : State) (b : Byte) : (s.setSt b).i = s.i := rfl
@[simp] theorem State.setSt_stack (s : State) (b : Byte) : (s.setSt b).stack = s.stack := rfl
@[simp] theorem State.setSt_sp (s : State) (b : Byte) : (s.setSt b).sp = s.sp := rfl
@[simp] theorem State.setSt_dt (s : State) (b : Byte) : (s.setSt b).dt = s.dt := rfl
@[simp] theorem State.setSt_st (s : State) (b : Byte) : (s.setSt b).st = b := rfl
@[simp] theorem State.setSt_keys (s : State) (b : Byte) : (s.setSt b).keys = s.keys := rfl
@[simp] theorem State.setSt_mode (s : State) (b : Byte) : (s.setSt b).mode = s.mode := rfl
@[simp] theorem State.setSt_draws (s : State) (b : Byte) : (s.setSt b).draws = s.draws := rfl
@[simp] theorem State.setSt_reg (s : State) (b : Byte) (r : RegIx) : (s.setSt b).reg r = s.reg r := rfl
@[simp] theorem State.setSt_slot (s : State) (b : Byte) (k : Fin 16) : (s.setSt b).slot k = s.slot k := rfl
@[simp] theorem State.setSt_key (s : State) (b : Byte) (k : Fin 16) : (s.setSt b).key k = s.key k := rfl
@[simp] theorem State.setSt_pixel (s : State) (b : Byte) (x : Fin 64) (y : Fin 32) : (s.setSt b).pixel x y = s.pixel x y := rfl

/-! ### `s.setMode m` -/

@[simp] theorem State.setMode_pc (s : State) (m : Mode) : (s.setMode m).pc = s.pc := rfl
@[simp] theorem State.setMode_mem (s : State) (m : Mode) : (s.setMode m).mem = s.mem := rfl
@[simp] theorem State.setMode_display (s : State) (m : Mode) : (s.setMode m).display = s.display := rfl
@[simp] theorem State.setMode_v (s : State) (m : Mode) : (s.setMode m).v = s.v := rfl
@[simp] theorem State.setMode_i (s : State) (m : Mode) : (s.setMode m).i = s.i := rfl
@[simp] theorem State.setMode_stack (s : State) (m : Mode) : (s.setMode m).stack = s.stack := rfl
@[simp] theorem State.setMode_sp (s : State) (m : Mode) : (s.setMode m).sp = s.sp := rfl
@[simp] theorem State.setMode_dt (s : State) (m : Mode) : (s.setMode m).dt = s.dt := rfl
@[simp] theorem State.setMode_st (s : State) (m : Mode) : (s.setMode m).st = s.st := rfl
@[simp] theorem State.setMode_keys (s : State) (m : Mode) : (s.setMode m).keys = s.keys := rfl
@[simp] theorem State.setMode_mode (s : State) (m : Mode) : (s.setMode m).mode = m := rfl
@[simp] theorem State.setMode_draws (s : State) (m : Mode) : (s.setMode m).draws = s.draws := rfl
@[simp] theorem State.setMode_reg (s : State) (m : Mode) (r : RegIx) : (s.setMode m).reg r = s.reg r := rfl
@[simp] theorem State.setMode_slot (s : State) (m : Mode) (k : Fin 16) : (s.setMode m).slot k = s.slot k := rfl
@[simp] theorem State.setMode_key (s : State) (m : Mode) (k : Fin 16) : (s.setMode m).key k = s.key k := rfl
@[simp] theorem State.setMode_pixel (s : State) (m : Mode) (x : Fin 64) (y : Fin 32) : (s.setMode m).pixel x y = s.pixel x y := rfl

/-! ### `s.setMem m` -/

@[simp] theorem State.setMem_pc (s : State) (m : Memory) : (s.setMem m).pc = s.pc := rfl
@[simp] theorem State.setMem_mem (s : State) (m : Memory) : (s.setMem m).mem = m := rfl
@[simp] theorem State.setMem_display (s : State) (m : Memory) : (s.setMem m).display = s.display := rfl
@[simp] theorem State.setMem_v (s : State) (m : Memory) : (s.setMem m).v = s.v := rfl
@[simp] theorem State.setMem_i (s : State) (m : Memory) : (s.setMem m).i = s.i := rfl
@[simp] theorem State.setMem_stack (s : State) (m : Memory) : (s.setMem m).stack = s.stack := rfl
@[simp] theorem State.setMem_sp (s : State) (m : Memory) : (s.setMem m).sp = s.sp := rfl
@[simp] theorem State.setMem_dt (s : State) (m : Memory) : (s.setMem m).dt = s.dt := rfl
@[simp] theorem State.setMem_st (s : State) (m : Memory) : (s.setMem m).st = s.st := rfl
@[simp] theorem State.setMem_keys (s : State) (m : Memory) : (s.setMem m).keys = s.keys := rfl
@[simp] theorem State.setMem_mode (s : State) (m : Memory) : (s.setMem m).mode = s.mode := rfl
@[simp] theorem State.setMem_draws (s : State) (m : Memory) : (s.setMem m).draws = s.draws := rfl
@[simp] theorem State.setMem_reg (s : State) (m : Memory) (r : RegIx) : (s.setMem m).reg r = s.reg r := rfl
@[simp] theorem State.setMem_slot (s : State) (m : Memory) (k : Fin 16) : (s.setMem m).slot k = s.slot k := rfl
@[simp] theorem State.setMem_key (s : State) (m : Memory) (k : Fin 16) : (s.setMem m).key k = s.key k := rfl
@[simp] theorem State.setMem_pixel (s : State) (m : Memory) (x : Fin 64) (y : Fin 32) : (s.setMem m).pixel x y = s.pixel x y := rfl

/-! ### `s.setDisplay d` -/

@[simp] theorem State.setDisplay_pc (s : State) (d : Display) : (s.setDisplay d).pc = s.pc := rfl
@[simp] theorem State.setDisplay_mem (s : State) (d : Display) : (s.setDisplay d).mem = s.mem := rfl
@[simp] theorem State.setDisplay_display (s : State) (d : Display) : (s.setDisplay d).display = d := rfl
@[simp] theorem State.setDisplay_v (s : State) (d : Display) : (s.setDisplay d).v = s.v := rfl
@[simp] theorem State.setDisplay_i (s : State) (d : Display) : (s.setDisplay d).i = s.i := rfl
@[simp] theorem State.setDisplay_stack (s : State) (d : Display) : (s.setDisplay d).stack = s.stack := rfl
@[simp] theorem State.setDisplay_sp (s : State) (d : Display) : (s.setDisplay d).sp = s.sp := rfl
@[simp] theorem State.setDisplay_dt (s : State) (d : Display) : (s.setDisplay d).dt = s.dt := rfl
@[simp] theorem State.setDisplay_st (s : State) (d : Display) : (s.setDisplay d).st = s.st := rfl
@[simp] theorem State.setDisplay_keys (s : State) (d : Display) : (s.setDisplay d).keys = s.keys := rfl
@[simp] theorem State.setDisplay_mode (s : State) (d : Display) : (s.setDisplay d).mode = s.mode := rfl
@[simp] theorem State.setDisplay_draws (s : State) (d : Display) : (s.setDisplay d).draws = s.draws := rfl
@[simp] theorem State.setDisplay_reg (s : State) (d : Display) (r : RegIx) : (s.setDisplay d).reg r = s.reg r := rfl
@[simp] theorem State.setDisplay_slot (s : State) (d : Display) (k : Fin 16) : (s.setDisplay d).slot k = s.slot k := rfl
@[simp] theorem State.setDisplay_key (s : State) (d : Display) (k : Fin 16) : (s.setDisplay d).key k = s.key k := rfl

/-! ### `s.setKeyFlag k b` -/

@[simp] theorem State.setKeyFlag_pc (s : State) (k : Fin 16) (b : Bool) : (s.setKeyFlag k b).pc = s.pc := rfl
@[simp] theorem State.setKeyFlag_mem (s : State) (k : Fin 16) (b : Bool) : (s.setKeyFlag k b).mem = s.mem := rfl
@[simp] theorem State.setKeyFlag_display (s : State) (k : Fin 16) (b : Bool) : (s.setKeyFlag k b).display = s.display := rfl
@[simp] theorem State.setKeyFlag_v (s : State) (k : Fin 16) (b : Bool) : (s.setKeyFlag k b).v = s.v := rfl
@[simp] theorem State.setKeyFlag_i (s : State) (k : Fin 16) (b : Bool) : (s.setKeyFlag k b).i = s.i := rfl
@[simp] theorem State.setKeyFlag_stack (s : State) (k : Fin 16) (b : Bool) : (s.setKeyFlag k b).stack = s.stack := rfl
@[simp] theorem State.setKeyFlag_sp (s : State) (k : Fin 16) (b : Bool) : (s.setKeyFlag k b).sp = s.sp := rfl
@[simp] theorem State.setKeyFlag_dt (s : State) (k : Fin 16) (b : Bool) : (s.setKeyFlag k b).dt = s.dt := rfl
@[simp] theorem State.setKeyFlag_st (s : State) (k : Fin 16) (b : Bool) : (s.setKeyFlag k b).st = s.st := rfl
@[simp] theorem State.setKeyFlag_keys (s : State) (k : Fin 16) (b : Bool) : (s.setKeyFlag k b).keys = s.keys.set k.val b := rfl
@[simp] theorem State.setKeyFlag_mode (s : State) (k : Fin 16) (b : Bool) : (s.setKeyFlag k b).mode = s.mode := rfl
@[simp] theorem State.setKeyFlag_draws (s : State) (k : Fin 16) (b : Bool) : (s.setKeyFlag k b).draws = s.draws := rfl
@[simp] theorem State.setKeyFlag_reg (s : State) (k : Fin 16) (b : Bool) (r : RegIx) : (s.setKeyFlag k b).reg r = s.reg r := rfl
@[simp] theorem State.setKeyFlag_slot (s : State) (k : Fin 16) (b : Bool) (j : Fin 16) : (s.setKeyFlag k b).slot j = s.slot j := rfl
@[simp] theorem State.setKeyFlag_pixel (s : State) (k : Fin 16) (b : Bool) (x : Fin 64) (y : Fin 32) : (s.setKeyFlag k b).pixel x y = s.pixel x y := rfl

/-! ### `s.advance` -/

@[simp] theorem State.advance_pc (s : State) : (s.advance).pc = s.pc + 2#16 := rfl
@[simp] theorem State.advance_mem (s : State) : (s.advance).mem = s.mem := rfl
@[simp] theorem State.advance_display (s : State) : (s.advance).display = s.display := rfl
@[simp] theorem State.advance_v (s : State) : (s.advance).v = s.v := rfl
@[simp] theorem State.advance_i (s : State) : (s.advance).i = s.i := rfl
@[simp] theorem State.advance_stack (s : State) : (s.advance).stack = s.stack := rfl
@[simp] theorem State.advance_sp (s : State) : (s.advance).sp = s.sp := rfl
@[simp] theorem State.advance_dt (s : State) : (s.advance).dt = s.dt := rfl
@[simp] theorem State.advance_st (s : State) : (s.advance).st = s.st := rfl
@[simp] theorem State.advance_keys (s : State) : (s.advance).keys = s.keys := rfl
@[simp] theorem State.advance_mode (s : State) : (s.advance).mode = s.mode := rfl
@[simp] theorem State.advance_draws (s : State) : (s.advance).draws = s.draws := rfl
@[simp] theorem State.advance_reg (s : State) (r : RegIx) : (s.advance).reg r = s.reg r := rfl
@[simp] theorem State.advance_slot (s : State) (k : Fin 16) : (s.advance).slot k = s.slot k := rfl
@[simp] theorem State.advance_key (s : State) (k : Fin 16) : (s.advance).key k = s.key k := rfl
@[simp] theorem State.advance_pixel (s : State) (x : Fin 64) (y : Fin 32) : (s.advance).pixel x y = s.pixel x y := rfl

/-! ### `s.draw.2` -/

@[simp] theorem State.draw2_pc (s : State) : (s.draw.2).pc = s.pc := rfl
@[simp] theorem State.draw2_mem (s : State) : (s.draw.2).mem = s.mem := rfl
@[simp] theorem State.draw2_display (s : State) : (s.draw.2).display = s.display := rfl
@[simp] theorem State.draw2_v (s : State) : (s.draw.2).v = s.v := rfl
@[simp] theorem State.draw2_i (s : State) : (s.draw.2).i = s.i := rfl
@[simp] theorem State.draw2_stack (s : State) : (s.draw.2).stack = s.stack := rfl
@[simp] theorem State.draw2_sp (s : State) : (s.draw.2).sp = s.sp := rfl
@[simp] theorem State.draw2_dt (s : State) : (s.draw.2).dt = s.dt := rfl
@[simp] theorem State.draw2_st (s : State) : (s.draw.2).st = s.st := rfl
@[simp] theorem State.draw2_keys (s : State) : (s.draw.2).keys = s.keys := rfl
@[simp] theorem State.draw2_mode (s : State) : (s.draw.2).mode = s.mode := rfl
@[simp] theorem State.draw2_draws (s : State) : (s.draw.2).draws = s.draws + 1 := rfl
@[simp] theorem State.draw2_reg (s : State) (r : RegIx) : (s.draw.2).reg r = s.reg r := rfl
@[simp] theorem State.draw2_slot (s : State) (k : Fin 16) : (s.draw.2).slot k = s.slot k := rfl
@[simp] theorem State.draw2_key (s : State) (k : Fin 16) : (s.draw.2).key k = s.key k := rfl
@[simp] theorem State.draw2_pixel (s : State) (x : Fin 64) (y : Fin 32) : (s.draw.2).pixel x y = s.pixel x y := rfl

/-! ### Reading back what was written -/

/-- A write of `V[x]` is read back at `x` and nowhere else (10_state.md R21: no register aliases another). -/
@[simp] theorem State.setReg_reg (s : State) (x : RegIx) (b : Byte) (r : RegIx) :
    (s.setReg x b).reg r = if r = x then b else s.reg r := by
  simp only [State.reg, State.setReg, Vector.getElem_set, Fin.ext_iff, eq_comm]

/-- Registers written as a whole are read from the vector written. -/
@[simp] theorem State.setRegs_reg (s : State) (w : Vector Byte 16) (r : RegIx) : (s.setRegs w).reg r = w[r.val] := rfl

/-- A write of a key flag is read back at its index and nowhere else (10_state.md R27). -/
@[simp] theorem State.setKeyFlag_key (s : State) (k : Fin 16) (b : Bool) (j : Fin 16) :
    (s.setKeyFlag k b).key j = if j = k then b else s.key j := by
  simp only [State.key, State.setKeyFlag, Vector.getElem_set, Fin.ext_iff, eq_comm]

/-- A display written as a whole is read from the grid written. -/
@[simp] theorem State.setDisplay_pixel (s : State) (d : Display) (x : Fin 64) (y : Fin 32) :
    (s.setDisplay d).pixel x y = Display.get d x y := rfl

/-- A pixel flipped is toggled, and no other cell changes (44_display.md R151). -/
@[simp] theorem Display.get_flip (d : Display) (x : Fin 64) (y : Fin 32) (x' : Fin 64) (y' : Fin 32) :
    Display.get (Display.flip d x y) x' y' = if x' = x ∧ y' = y then !Display.get d x y else Display.get d x' y' := by
  unfold Display.flip Display.get
  rw [Vector.getElem_set]
  by_cases hy : y.val = y'.val
  · have hy' : y' = y := Fin.ext hy.symm
    subst hy'
    simp only [if_true, Vector.getElem_set, and_true, Fin.ext_iff, eq_comm]
  · have hy' : y' ≠ y := fun h => hy (by rw [h])
    simp only [if_neg hy, hy', and_false, if_false]

/-- Every cell of a cleared display is 0 (44_display.md R150). -/
@[simp] theorem Display.get_clear (x : Fin 64) (y : Fin 32) : Display.get Display.clear x y = false := by
  simp only [Display.get, Display.clear, Vector.getElem_replicate]

/-! ### Reset (10_state.md R35) -/

/-- Every byte register is 0 after reset. -/
@[simp] theorem State.reset_reg (r : RegIx) : State.reset.reg r = 0#8 := by
  simp only [State.reg, State.reset, Vector.getElem_replicate]

/-- Every stack slot is 0 after reset. -/
@[simp] theorem State.reset_slot (k : Fin 16) : State.reset.slot k = 0#16 := by
  simp only [State.slot, State.reset, Vector.getElem_replicate]

/-- Every key is released after reset. -/
@[simp] theorem State.reset_key (k : Fin 16) : State.reset.key k = false := by
  simp only [State.key, State.reset, Vector.getElem_replicate]

/-- Every cell of the display is 0 after reset. -/
@[simp] theorem State.reset_pixel (x : Fin 64) (y : Fin 32) : State.reset.pixel x y = false := by
  simp only [State.pixel, State.reset, Display.get, Vector.getElem_replicate]

end Sys2Proof.Machine
end

