-- ==== Sys2Proof/Laws/Ops.lean ====
section
/-! SUPPORT. One lemma for each shared operation that says everything it does: the range check, fault entry, skips, the
call stack, block loads, key indices, the lowest key. -/

namespace Sys2Proof.Machine

/-! ### Range check and fault entry -/

/-- An access in range meets no fault (20_memory.md R52). -/
theorem accessFault_eq_none {base n : Nat} : accessFault base n = none ↔ n = 0 ∨ base + n - 1 ≤ 0x0FFF := by
  unfold accessFault
  split <;> simp <;> omega

/-- An access out of range meets the fault with `max(base, 0x1000)` (R52). -/
theorem accessFault_eq_some {base n : Nat} (h0 : 0 < n) (h : 0x0FFF < base + n - 1) :
    accessFault base n = some (BitVec.ofNat 16 (max base 0x1000)) := by
  unfold accessFault
  rw [if_pos ⟨h0, h⟩]

theorem withAccess_inRange (s : State) {base n : Nat} (k : Answer) (h : n = 0 ∨ base + n - 1 ≤ 0x0FFF) :
    withAccess s base n k = k := by
  unfold withAccess
  rw [accessFault_eq_none.mpr h]

theorem withAccess_outOfRange (s : State) {base n : Nat} (k : Answer) (h0 : 0 < n) (h : 0x0FFF < base + n - 1) :
    withAccess s base n k = .next (s.raiseFault .address (BitVec.ofNat 16 (max base 0x1000))) := by
  unfold withAccess
  rw [accessFault_eq_some h0 h]
  rfl

/-- Fault entry writes the mode and nothing else (60_exceptions.md R195). -/
theorem State.raiseFault_eq (s : State) (c : FaultCause) (info : Word) :
    s.raiseFault c info = s.setMode (s.raiseFault c info).mode := by
  unfold State.raiseFault
  split <;> rfl

/-- From a mode that is not `Faulted`, the mode becomes the record (R195). -/
theorem State.raiseFault_of_not_faulted {s : State} (h : ¬ isFaulted s) (c : FaultCause) (info : Word) :
    s.raiseFault c info = s.setMode (.faulted c info) := by
  unfold State.raiseFault
  split
  · rename_i c' i' hm; exact absurd ⟨c', i', hm⟩ h
  · rfl
  · rfl

/-- A record once written is kept (R195). -/
theorem State.raiseFault_of_faulted {s : State} (h : isFaulted s) (c : FaultCause) (info : Word) :
    s.raiseFault c info = s := by
  obtain ⟨c', i', hm⟩ := h
  unfold State.raiseFault
  rw [hm]

/-- A fault raised outside `Faulted` is taken as R195 says. -/
theorem State.raiseFault_taken {s : State} (h : ¬ isFaulted s) (c : FaultCause) (info : Word) :
    FaultTaken s (s.raiseFault c info) c info := by
  rw [State.raiseFault_of_not_faulted h]
  exact ⟨rfl, by constructor <;> simp⟩

/-! ### Skips -/

/-- A skip moves the program counter by 2 when the condition holds, and nothing else (41_skips.md R110). -/
theorem State.skipIf_eq (s : State) (c : Bool) : s.skipIf c = s.setPc (if c then s.pc + 2#16 else s.pc) := by
  cases c <;> rfl

/-! ### The call stack -/

theorem State.push_eq_none {s : State} {w : Word} : s.push w = none ↔ s.sp.val = 16 := by
  unfold State.push
  have := s.sp.isLt
  split <;> simp <;> omega

theorem State.pop_eq_none {s : State} : s.pop = none ↔ s.sp.val = 0 := by
  unfold State.pop
  split <;> simp_all

/-- What a push does: slot `sp` receives the word, `sp` rises by one, and nothing else changes (10_state.md R25). -/
theorem State.push_spec {s : State} {w : Word} (h : s.sp.val < 16) :
    ∃ t, s.push w = some t ∧ t.sp.val = s.sp.val + 1 ∧ (∀ k, t.slot k = if k.val = s.sp.val then w else s.slot k) ∧
      Frame { stack := true } s t := by
  unfold State.push
  rw [dif_pos h]
  refine ⟨_, rfl, rfl, fun k => ?_, ?_⟩
  · simp only [State.slot, Vector.getElem_set, eq_comm]
  · constructor <;> intros <;> first | rfl | contradiction

/-- What a pop does: the slot below `sp` is answered and keeps its value, `sp` falls by one, nothing else changes. -/
theorem State.pop_spec {s : State} (h : s.sp.val ≠ 0) :
    ∃ (k : Fin 16) (t : State), k.val = s.sp.val - 1 ∧ s.pop = some (s.slot k, t) ∧ t.sp.val = s.sp.val - 1 ∧
      (∀ j, t.slot j = s.slot j) ∧ Frame { stack := true } s t := by
  unfold State.pop
  rw [dif_neg h]
  refine ⟨⟨s.sp.val - 1, by omega⟩, _, rfl, rfl, rfl, fun _ => rfl, ?_⟩
  constructor <;> intros <;> first | rfl | contradiction

/-! ### Block loads and stores -/

/-- Registers `k`, `k + 1`, ... receive the bytes in order, the others keep their values (43_index_memory.md R145). -/
theorem loadRegs_getElem (bs : List Byte) (v : Vector Byte 16) (k j : Nat) (hj : j < 16) :
    (loadRegs v k bs)[j] = if k ≤ j ∧ j < k + bs.length then bs.getD (j - k) 0#8 else v[j] := by
  induction bs generalizing v k with
  | nil => simp [loadRegs]
  | cons b bs ih =>
    rw [loadRegs, ih, List.length_cons, Vector.getElem_setIfInBounds]
    by_cases h1 : j = k
    · subst h1; simp
    · by_cases h2 : k + 1 ≤ j ∧ j < k + 1 + bs.length
      · have h3 : j - k = (j - (k + 1)) + 1 := by omega
        rw [if_pos h2, if_pos (by omega), h3, List.getD_cons_succ]
      · rw [if_neg h2, if_neg (by omega), if_neg (by omega)]

theorem State.regsUpTo_length (s : State) (x : RegIx) : (s.regsUpTo x).length = x.val + 1 := by
  have := x.isLt
  simp only [State.regsUpTo, List.length_take, Vector.length_toList]
  omega

/-- The `k`-th byte LD_MEM_VX stores is `V[k]` (R144). -/
theorem State.regsUpTo_getD (s : State) (x k : RegIx) (h : k.val ≤ x.val) :
    (s.regsUpTo x).getD k.val 0#8 = s.reg k := by
  have hk : k.val < (s.regsUpTo x).length := by rw [State.regsUpTo_length]; omega
  rw [List.getD_eq_getElem _ _ hk]
  simp [State.regsUpTo, State.reg]

/-! ### Keys -/

theorem keyIndex_eq_none {b : Byte} : keyIndex b = none ↔ 15 < b.toNat := by
  unfold keyIndex
  split <;> simp <;> omega

theorem keyIndex_eq_some {b : Byte} {k : Fin 16} : keyIndex b = some k ↔ b.toNat = k.val := by
  have := k.isLt
  unfold keyIndex
  split
  · simp [Fin.ext_iff]
  · simp only [reduceCtorEq, false_iff]; omega

theorem State.lowestKey_eq_none {s : State} : s.lowestKey = none ↔ ∀ k, s.key k = false := by
  simp [State.lowestKey]

/-- The key captured is pressed and no lower one is (45_timers_keys.md R162). -/
theorem State.lowestKey_spec {s : State} {k : Fin 16} (h : s.lowestKey = some k) :
    s.key k = true ∧ ∀ j, j < k → s.key j = false := by
  rw [State.lowestKey, List.find?_eq_some_iff_getElem] at h
  obtain ⟨hk, n, hn, he, hlt⟩ := h
  refine ⟨hk, fun j hj => ?_⟩
  have hnk : k.val = n := by rw [← he]; simp
  have := hlt j.val (by omega)
  simpa using this

end Sys2Proof.Machine
end

