-- ==== Sys2Proof/Laws/Display.lean ====
section
/-! SUPPORT. What drawing a sprite does: it toggles the list of cells its set bits fall on, one after the other; in a
sprite of at most 32 rows no cell occurs twice (44_display.md R151: "no pixel is touched twice in one DRW"), so each
is toggled once and the collision is a cell of the list that was lit before. -/

namespace Sys2Proof.Machine

/-- The cells the set bits of a sprite fall on, row by row, column by column (R151). -/
def spriteCells (x0 : Nat) : Nat → List Byte → List (Fin 64 × Fin 32)
  | _, [] => []
  | py, b :: bs =>
    (((List.range 8).filter (fun c => spriteBit b c)).map fun c => (wrapX (x0 + c), wrapY py)) ++
      spriteCells x0 (py + 1) bs

/-- Toggle a list of cells in order. -/
def drawCells (d : Display × Bool) (cells : List (Fin 64 × Fin 32)) : Display × Bool :=
  cells.foldl (fun d c => drawPixel c.1 c.2 d) d

theorem drawRow_eq_drawCells (x0 py : Nat) (b : Byte) (d : Display × Bool) :
    drawRow x0 py b d =
      drawCells d (((List.range 8).filter (fun c => spriteBit b c)).map fun c => (wrapX (x0 + c), wrapY py)) := by
  rw [drawRow, drawCells, List.foldl_map, List.foldl_filter]

/-- DRW's loop toggles the sprite's cells in order. -/
theorem drawRows_eq_drawCells (x0 : Nat) (bs : List Byte) (py : Nat) (d : Display × Bool) :
    drawRows x0 py bs d = drawCells d (spriteCells x0 py bs) := by
  induction bs generalizing py d with
  | nil => rfl
  | cons b bs ih =>
    rw [drawRows, ih, drawRow_eq_drawCells, spriteCells, drawCells, drawCells, drawCells, List.foldl_append]

/-- Toggling distinct cells: a cell of the list is toggled, every other keeps its value. -/
theorem drawCells_get {cells : List (Fin 64 × Fin 32)} (h : cells.Nodup) (d : Display × Bool) (x : Fin 64) (y : Fin 32) :
    Display.get (drawCells d cells).1 x y =
      if (x, y) ∈ cells then !Display.get d.1 x y else Display.get d.1 x y := by
  induction cells generalizing d with
  | nil => rfl
  | cons c cells ih =>
    obtain ⟨hc, hn⟩ := List.nodup_cons.mp h
    rw [drawCells, List.foldl_cons, ← drawCells, ih hn, drawPixel, Display.get_flip]
    by_cases e : (x, y) = c
    · subst e
      simp [hc]
    · have e' : ¬ (x = c.1 ∧ y = c.2) := fun ⟨e1, e2⟩ => e (by rw [e1, e2])
      simp [e, e']

/-- Toggling distinct cells: the collision is an earlier one, or a cell of the list that was lit. -/
theorem drawCells_collision {cells : List (Fin 64 × Fin 32)} (h : cells.Nodup) (d : Display × Bool) :
    (drawCells d cells).2 = true ↔ d.2 = true ∨ ∃ c ∈ cells, Display.get d.1 c.1 c.2 = true := by
  induction cells generalizing d with
  | nil => simp [drawCells]
  | cons c cells ih =>
    obtain ⟨hc, hn⟩ := List.nodup_cons.mp h
    have keep : ∀ c' ∈ cells, Display.get (drawPixel c.1 c.2 d).1 c'.1 c'.2 = Display.get d.1 c'.1 c'.2 := by
      intro c' hc'
      rw [drawPixel, Display.get_flip, if_neg]
      rintro ⟨e1, e2⟩
      exact hc ((Prod.ext e1 e2 : c' = c) ▸ hc')
    rw [drawCells, List.foldl_cons, ← drawCells, ih hn]
    constructor
    · rintro (h1 | ⟨c', hc', h1⟩)
      · simp only [drawPixel, Bool.or_eq_true] at h1
        exact h1.imp_right fun h1 => ⟨c, List.mem_cons_self, h1⟩
      · exact .inr ⟨c', List.mem_cons_of_mem c hc', keep c' hc' ▸ h1⟩
    · rintro (h1 | ⟨c', hc', h1⟩)
      · exact .inl (by simp only [drawPixel, h1, Bool.true_or])
      · rcases List.mem_cons.mp hc' with rfl | hc'
        · exact .inl (by simp only [drawPixel, h1, Bool.or_true])
        · exact .inr ⟨c', hc', (keep c' hc').symm ▸ h1⟩

/-- Which cells a sprite's set bits fall on. -/
theorem mem_spriteCells (x0 : Nat) (bs : List Byte) (py : Nat) (x : Fin 64) (y : Fin 32) :
    (x, y) ∈ spriteCells x0 py bs ↔
      ∃ r c : Nat, r < bs.length ∧ c < 8 ∧ spriteBit (bs.getD r 0#8) c = true ∧ x.val = (x0 + c) % 64 ∧
        y.val = (py + r) % 32 := by
  induction bs generalizing py with
  | nil => simp [spriteCells]
  | cons b bs ih =>
    simp only [spriteCells, List.mem_append, List.mem_map, List.mem_filter, List.mem_range, Prod.mk.injEq, ih,
      List.length_cons]
    constructor
    · rintro (⟨c, ⟨h1, h2⟩, rfl, rfl⟩ | ⟨r, c, h1, h2, h3, h4, h5⟩)
      · exact ⟨0, c, by omega, h1, h2, rfl, rfl⟩
      · exact ⟨r + 1, c, by omega, h2, h3, h4, by rw [h5]; congr 1; omega⟩
    · rintro ⟨r, c, h1, h2, h3, h4, h5⟩
      cases r with
      | zero => exact .inl ⟨c, ⟨h2, h3⟩, Fin.ext h4.symm, Fin.ext h5.symm⟩
      | succ r => exact .inr ⟨r, c, by omega, h2, h3, h4, by rw [h5]; congr 1; omega⟩

/-- A sprite of at most 32 rows touches no cell twice. -/
theorem nodup_spriteCells (x0 : Nat) (bs : List Byte) (py : Nat) (h : bs.length ≤ 32) :
    (spriteCells x0 py bs).Nodup := by
  induction bs generalizing py with
  | nil => exact List.nodup_nil
  | cons b bs ih =>
    rw [List.length_cons] at h
    rw [spriteCells]
    refine List.Nodup.append ?_ (ih (py + 1) (by omega)) ?_
    · refine List.Nodup.map_on ?_ (List.nodup_range.filter _)
      intro c hc c' hc' e
      have h1 := List.mem_range.mp (List.mem_filter.mp hc).1
      have h2 := List.mem_range.mp (List.mem_filter.mp hc').1
      have h3 := congrArg (fun p => p.1.val) e
      simp only [wrapX] at h3
      omega
    · intro p hp hp'
      obtain ⟨c, -, rfl⟩ := List.mem_map.mp hp
      obtain ⟨r, c', h1, -, -, -, h2⟩ := (mem_spriteCells x0 bs (py + 1) _ _).mp hp'
      simp only [wrapY] at h2
      omega

end Sys2Proof.Machine
end

