-- ==== Sys2Proof/Laws/Encoding.lean ====
section
/-! SUPPORT. The fields of an encoded word (30_encoding.md R70, R82): a field of an OR is the OR of the fields, and what
each part an encoder places holds in each field. With these a decode of an encoding is evaluated field by field. -/

namespace Sys2Proof

/-! ### Fields of an OR -/

@[simp] theorem nibble1_or (a b : Word) : nibble1 (a ||| b) = nibble1 a ||| nibble1 b := by
  simp only [nibble1, BitVec.extractLsb'_or]

@[simp] theorem nibble2_or (a b : Word) : nibble2 (a ||| b) = nibble2 a ||| nibble2 b := by
  simp only [nibble2, BitVec.extractLsb'_or]

@[simp] theorem nibble3_or (a b : Word) : nibble3 (a ||| b) = nibble3 a ||| nibble3 b := by
  simp only [nibble3, BitVec.extractLsb'_or]

@[simp] theorem nibble4_or (a b : Word) : nibble4 (a ||| b) = nibble4 a ||| nibble4 b := by
  simp only [nibble4, BitVec.extractLsb'_or]

@[simp] theorem fieldNN_or (a b : Word) : fieldNN (a ||| b) = fieldNN a ||| fieldNN b := by
  simp only [fieldNN, BitVec.extractLsb'_or]

@[simp] theorem fieldNNN_or (a b : Word) : fieldNNN (a ||| b) = fieldNNN a ||| fieldNNN b := by
  simp only [fieldNNN, BitVec.extractLsb'_or]

/-! ### X placed in bits 11 to 8 -/

@[simp] theorem nibble1_x8 (f : BitVec 4) : nibble1 (nibbleWord f <<< 8) = 0#4 := by
  apply BitVec.eq_of_getLsbD_eq
  intro j hj
  interval_cases j <;> simp [nibble1, nibbleWord]

@[simp] theorem nibble2_x8 (f : BitVec 4) : nibble2 (nibbleWord f <<< 8) = f := by
  apply BitVec.eq_of_getLsbD_eq
  intro j hj
  interval_cases j <;> simp [nibble2, nibbleWord]

@[simp] theorem nibble3_x8 (f : BitVec 4) : nibble3 (nibbleWord f <<< 8) = 0#4 := by
  apply BitVec.eq_of_getLsbD_eq
  intro j hj
  interval_cases j <;> simp [nibble3, nibbleWord]

@[simp] theorem nibble4_x8 (f : BitVec 4) : nibble4 (nibbleWord f <<< 8) = 0#4 := by
  apply BitVec.eq_of_getLsbD_eq
  intro j hj
  interval_cases j <;> simp [nibble4, nibbleWord]

@[simp] theorem fieldNN_x8 (f : BitVec 4) : fieldNN (nibbleWord f <<< 8) = 0#8 := by
  apply BitVec.eq_of_getLsbD_eq
  intro j hj
  interval_cases j <;> simp [fieldNN, nibbleWord]

/-! ### Y placed in bits 7 to 4 -/

@[simp] theorem nibble1_x4 (f : BitVec 4) : nibble1 (nibbleWord f <<< 4) = 0#4 := by
  apply BitVec.eq_of_getLsbD_eq
  intro j hj
  interval_cases j <;> simp [nibble1, nibbleWord]

@[simp] theorem nibble2_x4 (f : BitVec 4) : nibble2 (nibbleWord f <<< 4) = 0#4 := by
  apply BitVec.eq_of_getLsbD_eq
  intro j hj
  interval_cases j <;> simp [nibble2, nibbleWord]

@[simp] theorem nibble3_x4 (f : BitVec 4) : nibble3 (nibbleWord f <<< 4) = f := by
  apply BitVec.eq_of_getLsbD_eq
  intro j hj
  interval_cases j <;> simp [nibble3, nibbleWord]

@[simp] theorem nibble4_x4 (f : BitVec 4) : nibble4 (nibbleWord f <<< 4) = 0#4 := by
  apply BitVec.eq_of_getLsbD_eq
  intro j hj
  interval_cases j <;> simp [nibble4, nibbleWord]

/-! ### N placed in bits 3 to 0 -/

@[simp] theorem nibble1_n (f : BitVec 4) : nibble1 (nibbleWord f) = 0#4 := by
  apply BitVec.eq_of_getLsbD_eq
  intro j hj
  interval_cases j <;> simp [nibble1, nibbleWord]

@[simp] theorem nibble2_n (f : BitVec 4) : nibble2 (nibbleWord f) = 0#4 := by
  apply BitVec.eq_of_getLsbD_eq
  intro j hj
  interval_cases j <;> simp [nibble2, nibbleWord]

@[simp] theorem nibble3_n (f : BitVec 4) : nibble3 (nibbleWord f) = 0#4 := by
  apply BitVec.eq_of_getLsbD_eq
  intro j hj
  interval_cases j <;> simp [nibble3, nibbleWord]

@[simp] theorem nibble4_n (f : BitVec 4) : nibble4 (nibbleWord f) = f := by
  apply BitVec.eq_of_getLsbD_eq
  intro j hj
  interval_cases j <;> simp [nibble4, nibbleWord]

/-! ### NN placed in the low byte -/

@[simp] theorem nibble1_nn (nn : Byte) : nibble1 (nn.setWidth 16) = 0#4 := by
  apply BitVec.eq_of_getLsbD_eq
  intro j hj
  interval_cases j <;> simp [nibble1]

@[simp] theorem nibble2_nn (nn : Byte) : nibble2 (nn.setWidth 16) = 0#4 := by
  apply BitVec.eq_of_getLsbD_eq
  intro j hj
  interval_cases j <;> simp [nibble2]

@[simp] theorem fieldNN_nn (nn : Byte) : fieldNN (nn.setWidth 16) = nn := by
  apply BitVec.eq_of_getLsbD_eq
  intro j hj
  interval_cases j <;> simp [fieldNN]

/-! ### NNN placed in the low 12 bits -/

@[simp] theorem nibble1_nnn (nnn : Addr12) : nibble1 (nnn.setWidth 16) = 0#4 := by
  apply BitVec.eq_of_getLsbD_eq
  intro j hj
  interval_cases j <;> simp [nibble1]

@[simp] theorem fieldNNN_nnn (nnn : Addr12) : fieldNNN (nnn.setWidth 16) = nnn := by
  apply BitVec.eq_of_getLsbD_eq
  intro j hj
  interval_cases j <;> simp [fieldNNN]

/-- The register index is read back from the field that holds it. -/
@[simp] theorem regField_toFin (x : RegIx) : (regField x).toFin = x := rfl

/-! ### The fields of each format's encoding (R71, R82) -/

@[simp] theorem nibble1_encodeA (p : Word) (nnn : Addr12) : nibble1 (encodeA p nnn) = nibble1 p := by
  simp [encodeA]

theorem fieldNNN_encodeA {p : Word} (hp : fieldNNN p = 0#12) (nnn : Addr12) : fieldNNN (encodeA p nnn) = nnn := by
  simp [encodeA, hp]

@[simp] theorem nibble1_encodeI (p : Word) (x : RegIx) (nn : Byte) : nibble1 (encodeI p x nn) = nibble1 p := by
  simp [encodeI]

theorem fieldX_encodeI {p : Word} (hp : nibble2 p = 0#4) (x : RegIx) (nn : Byte) : fieldX (encodeI p x nn) = x := by
  rw [fieldX]
  simp only [encodeI, nibble2_or, hp, nibble2_x8, nibble2_nn, BitVec.or_zero, BitVec.zero_or, regField_toFin]

theorem fieldNN_encodeI {p : Word} (hp : fieldNN p = 0#8) (x : RegIx) (nn : Byte) : fieldNN (encodeI p x nn) = nn := by
  simp [encodeI, hp]

@[simp] theorem nibble1_encodeR (p : Word) (x y : RegIx) : nibble1 (encodeR p x y) = nibble1 p := by
  simp [encodeR]

theorem fieldX_encodeR {p : Word} (hp : nibble2 p = 0#4) (x y : RegIx) : fieldX (encodeR p x y) = x := by
  rw [fieldX]
  simp only [encodeR, nibble2_or, hp, nibble2_x8, nibble2_x4, BitVec.or_zero, BitVec.zero_or, regField_toFin]

theorem fieldY_encodeR {p : Word} (hp : nibble3 p = 0#4) (x y : RegIx) : fieldY (encodeR p x y) = y := by
  rw [fieldY]
  simp only [encodeR, nibble3_or, hp, nibble3_x8, nibble3_x4, BitVec.or_zero, BitVec.zero_or, regField_toFin]

@[simp] theorem nibble4_encodeR (p : Word) (x y : RegIx) : nibble4 (encodeR p x y) = nibble4 p := by
  simp [encodeR]

@[simp] theorem nibble1_encodeD (p : Word) (x y : RegIx) (n : Nat) : nibble1 (encodeD p x y n) = nibble1 p := by
  simp [encodeD]

theorem fieldX_encodeD {p : Word} (hp : nibble2 p = 0#4) (x y : RegIx) (n : Nat) : fieldX (encodeD p x y n) = x := by
  rw [fieldX]
  simp only [encodeD, nibble2_or, hp, nibble2_x8, nibble2_x4, nibble2_n, BitVec.or_zero, BitVec.zero_or, regField_toFin]

theorem fieldY_encodeD {p : Word} (hp : nibble3 p = 0#4) (x y : RegIx) (n : Nat) : fieldY (encodeD p x y n) = y := by
  rw [fieldY]
  simp only [encodeD, nibble3_or, hp, nibble3_x8, nibble3_x4, nibble3_n, BitVec.or_zero, BitVec.zero_or, regField_toFin]

theorem fieldN_encodeD {p : Word} (hp : nibble4 p = 0#4) (x y : RegIx) {n : Nat} (hn : n < 16) :
    fieldN (encodeD p x y n) = n := by
  simp only [fieldN, encodeD, nibble4_or, hp, nibble4_x8, nibble4_x4, nibble4_n, BitVec.zero_or, BitVec.toNat_ofNat]
  omega

@[simp] theorem nibble1_encodeU (p : Word) (x : RegIx) : nibble1 (encodeU p x) = nibble1 p := by
  simp [encodeU]

theorem fieldX_encodeU {p : Word} (hp : nibble2 p = 0#4) (x : RegIx) : fieldX (encodeU p x) = x := by
  rw [fieldX]
  simp only [encodeU, nibble2_or, hp, nibble2_x8, BitVec.zero_or, regField_toFin]

@[simp] theorem fieldNN_encodeU (p : Word) (x : RegIx) : fieldNN (encodeU p x) = fieldNN p := by
  simp [encodeU]

/-! ### Bytes and words (R53) -/

/-- The two bytes of a word, put together again, are the word. -/
@[simp] theorem wordOfBytes_bytes (w : Word) : wordOfBytes (w.extractLsb' 8 8) (w.extractLsb' 0 8) = w := by
  apply BitVec.eq_of_getLsbD_eq
  intro j hj
  unfold wordOfBytes
  rw [BitVec.getLsbD_append]
  interval_cases j <;> simp

end Sys2Proof
end

