-- ==== Sys2Proof/Laws/Flags.lean ====
section
/-! SUPPORT. The flag computations in the arithmetic of 42_load_alu.md R120: carry as a sum above 255, no borrow as an
unsigned comparison. -/

namespace Sys2Proof.Machine

theorem sum9_toNat (a b : Byte) : (sum9 a b).toNat = a.toNat + b.toNat := by
  have ha := a.isLt
  have hb := b.isLt
  simp only [sum9, BitVec.toNat_add, BitVec.toNat_setWidth]
  omega

/-- The result of ADD_REG is the sum modulo 256 (R120). -/
theorem sumResult_toNat (a b : Byte) : (sumResult a b).toNat = (a.toNat + b.toNat) % 256 := by
  simp only [sumResult, BitVec.extractLsb'_toNat, sum9_toNat, Nat.shiftRight_zero]

/-- The carry is 1 exactly when the sum exceeds 255 (R120). -/
theorem carryFlag_eq (a b : Byte) : carryFlag a b = if 255 < a.toNat + b.toNat then 1#8 else 0#8 := by
  have ha := a.isLt
  have hb := b.isLt
  have h : (sum9 a b).getLsbD 8 = decide (255 < a.toNat + b.toNat) := by
    rw [BitVec.getLsbD, sum9_toNat, Nat.testBit_eq_decide_div_mod_eq]
    simp only [decide_eq_decide]
    omega
  simp only [carryFlag, flagByte, h, decide_eq_true_eq]

/-- The flag of the subtractions is 1 exactly when the minuend is not below the subtrahend (R120). -/
theorem notBorrowFlag_eq (a b : Byte) : notBorrowFlag a b = if b.toNat ≤ a.toNat then 1#8 else 0#8 := by
  simp only [notBorrowFlag, flagByte, BitVec.ule, decide_eq_true_eq]

end Sys2Proof.Machine
end

