-- ==== Sys2Proof/Laws/PerInstr.lean ====
section
/-! SUPPORT. Statements made per instruction. OwnRow: the word an instruction encodes to selects, by mask and match, the
row of the opcode map (30_encoding.md R74) that bears the instruction's name. -/

namespace Sys2Proof.Laws

/-- The operand fields of format A lie outside the mask of its rows. -/
theorem encodeA_mask (p : Word) (nnn : Addr12) : encodeA p nnn &&& 0xF000#16 = p &&& 0xF000#16 := by
  apply BitVec.eq_of_getLsbD_eq
  intro j hj
  interval_cases j <;> simp [encodeA]

/-- The operand fields of format I lie outside the mask of its rows. -/
theorem encodeI_mask (p : Word) (x : RegIx) (nn : Byte) : encodeI p x nn &&& 0xF000#16 = p &&& 0xF000#16 := by
  apply BitVec.eq_of_getLsbD_eq
  intro j hj
  interval_cases j <;> simp [encodeI, nibbleWord]

/-- The operand fields of format R lie outside the mask of its rows. -/
theorem encodeR_mask (p : Word) (x y : RegIx) : encodeR p x y &&& 0xF00F#16 = p &&& 0xF00F#16 := by
  apply BitVec.eq_of_getLsbD_eq
  intro j hj
  interval_cases j <;> simp [encodeR, nibbleWord]

/-- The operand fields of format D lie outside the mask of its rows. -/
theorem encodeD_mask (p : Word) (x y : RegIx) (n : Nat) : encodeD p x y n &&& 0xF000#16 = p &&& 0xF000#16 := by
  apply BitVec.eq_of_getLsbD_eq
  intro j hj
  interval_cases j <;> simp [encodeD, nibbleWord]

/-- The operand fields of format U lie outside the mask of its rows. -/
theorem encodeU_mask (p : Word) (x : RegIx) : encodeU p x &&& 0xF0FF#16 = p &&& 0xF0FF#16 := by
  apply BitVec.eq_of_getLsbD_eq
  intro j hj
  interval_cases j <;> simp [encodeU, nibbleWord]

/-- The encoding of `i` selects its own row. -/
def OwnRow.Statement (i : Instr) : Prop := ∃ r ∈ opcodeMap, r.name = i.name ∧ r.selects (encodeWord i) = true

theorem OwnRow.nop : OwnRow.Statement (.nop) :=
  ⟨⟨"NOP", 0x0000#16, 0xFFFF#16⟩, by decide, rfl, rfl⟩

theorem OwnRow.cls : OwnRow.Statement (.cls) :=
  ⟨⟨"CLS", 0x00E0#16, 0xFFFF#16⟩, by decide, rfl, rfl⟩

theorem OwnRow.ret : OwnRow.Statement (.ret) :=
  ⟨⟨"RET", 0x00EE#16, 0xFFFF#16⟩, by decide, rfl, rfl⟩

theorem OwnRow.jp (nnn : Addr12) : OwnRow.Statement (.jp nnn) :=
  ⟨⟨"JP", 0x1000#16, 0xF000#16⟩, by decide, rfl, by simp [OpcodeRow.selects, encodeWord, encodeA_mask]⟩

theorem OwnRow.call (nnn : Addr12) : OwnRow.Statement (.call nnn) :=
  ⟨⟨"CALL", 0x2000#16, 0xF000#16⟩, by decide, rfl, by simp [OpcodeRow.selects, encodeWord, encodeA_mask]⟩

theorem OwnRow.seImm (x : RegIx) (nn : Byte) : OwnRow.Statement (.seImm x nn) :=
  ⟨⟨"SE_IMM", 0x3000#16, 0xF000#16⟩, by decide, rfl, by simp [OpcodeRow.selects, encodeWord, encodeI_mask]⟩

theorem OwnRow.sneImm (x : RegIx) (nn : Byte) : OwnRow.Statement (.sneImm x nn) :=
  ⟨⟨"SNE_IMM", 0x4000#16, 0xF000#16⟩, by decide, rfl, by simp [OpcodeRow.selects, encodeWord, encodeI_mask]⟩

theorem OwnRow.seReg (x y : RegIx) : OwnRow.Statement (.seReg x y) :=
  ⟨⟨"SE_REG", 0x5000#16, 0xF00F#16⟩, by decide, rfl, by simp [OpcodeRow.selects, encodeWord, encodeR_mask]⟩

theorem OwnRow.ldImm (x : RegIx) (nn : Byte) : OwnRow.Statement (.ldImm x nn) :=
  ⟨⟨"LD_IMM", 0x6000#16, 0xF000#16⟩, by decide, rfl, by simp [OpcodeRow.selects, encodeWord, encodeI_mask]⟩

theorem OwnRow.addImm (x : RegIx) (nn : Byte) : OwnRow.Statement (.addImm x nn) :=
  ⟨⟨"ADD_IMM", 0x7000#16, 0xF000#16⟩, by decide, rfl, by simp [OpcodeRow.selects, encodeWord, encodeI_mask]⟩

theorem OwnRow.ldReg (x y : RegIx) : OwnRow.Statement (.ldReg x y) :=
  ⟨⟨"LD_REG", 0x8000#16, 0xF00F#16⟩, by decide, rfl, by simp [OpcodeRow.selects, encodeWord, encodeR_mask]⟩

theorem OwnRow.or (x y : RegIx) : OwnRow.Statement (.or x y) :=
  ⟨⟨"OR", 0x8001#16, 0xF00F#16⟩, by decide, rfl, by simp [OpcodeRow.selects, encodeWord, encodeR_mask]⟩

theorem OwnRow.and (x y : RegIx) : OwnRow.Statement (.and x y) :=
  ⟨⟨"AND", 0x8002#16, 0xF00F#16⟩, by decide, rfl, by simp [OpcodeRow.selects, encodeWord, encodeR_mask]⟩

theorem OwnRow.xor (x y : RegIx) : OwnRow.Statement (.xor x y) :=
  ⟨⟨"XOR", 0x8003#16, 0xF00F#16⟩, by decide, rfl, by simp [OpcodeRow.selects, encodeWord, encodeR_mask]⟩

theorem OwnRow.addReg (x y : RegIx) : OwnRow.Statement (.addReg x y) :=
  ⟨⟨"ADD_REG", 0x8004#16, 0xF00F#16⟩, by decide, rfl, by simp [OpcodeRow.selects, encodeWord, encodeR_mask]⟩

theorem OwnRow.sub (x y : RegIx) : OwnRow.Statement (.sub x y) :=
  ⟨⟨"SUB", 0x8005#16, 0xF00F#16⟩, by decide, rfl, by simp [OpcodeRow.selects, encodeWord, encodeR_mask]⟩

theorem OwnRow.shr (x y : RegIx) : OwnRow.Statement (.shr x y) :=
  ⟨⟨"SHR", 0x8006#16, 0xF00F#16⟩, by decide, rfl, by simp [OpcodeRow.selects, encodeWord, encodeR_mask]⟩

theorem OwnRow.subn (x y : RegIx) : OwnRow.Statement (.subn x y) :=
  ⟨⟨"SUBN", 0x8007#16, 0xF00F#16⟩, by decide, rfl, by simp [OpcodeRow.selects, encodeWord, encodeR_mask]⟩

theorem OwnRow.shl (x y : RegIx) : OwnRow.Statement (.shl x y) :=
  ⟨⟨"SHL", 0x800E#16, 0xF00F#16⟩, by decide, rfl, by simp [OpcodeRow.selects, encodeWord, encodeR_mask]⟩

theorem OwnRow.sneReg (x y : RegIx) : OwnRow.Statement (.sneReg x y) :=
  ⟨⟨"SNE_REG", 0x9000#16, 0xF00F#16⟩, by decide, rfl, by simp [OpcodeRow.selects, encodeWord, encodeR_mask]⟩

theorem OwnRow.ldI (nnn : Addr12) : OwnRow.Statement (.ldI nnn) :=
  ⟨⟨"LD_I", 0xA000#16, 0xF000#16⟩, by decide, rfl, by simp [OpcodeRow.selects, encodeWord, encodeA_mask]⟩

theorem OwnRow.jpV0 (nnn : Addr12) : OwnRow.Statement (.jpV0 nnn) :=
  ⟨⟨"JP_V0", 0xB000#16, 0xF000#16⟩, by decide, rfl, by simp [OpcodeRow.selects, encodeWord, encodeA_mask]⟩

theorem OwnRow.rnd (x : RegIx) (nn : Byte) : OwnRow.Statement (.rnd x nn) :=
  ⟨⟨"RND", 0xC000#16, 0xF000#16⟩, by decide, rfl, by simp [OpcodeRow.selects, encodeWord, encodeI_mask]⟩

theorem OwnRow.drw (x y : RegIx) (n : Nat) : OwnRow.Statement (.drw x y n) :=
  ⟨⟨"DRW", 0xD000#16, 0xF000#16⟩, by decide, rfl, by simp [OpcodeRow.selects, encodeWord, encodeD_mask]⟩

theorem OwnRow.skp (x : RegIx) : OwnRow.Statement (.skp x) :=
  ⟨⟨"SKP", 0xE09E#16, 0xF0FF#16⟩, by decide, rfl, by simp [OpcodeRow.selects, encodeWord, encodeU_mask]⟩

theorem OwnRow.sknp (x : RegIx) : OwnRow.Statement (.sknp x) :=
  ⟨⟨"SKNP", 0xE0A1#16, 0xF0FF#16⟩, by decide, rfl, by simp [OpcodeRow.selects, encodeWord, encodeU_mask]⟩

theorem OwnRow.ldVxDt (x : RegIx) : OwnRow.Statement (.ldVxDt x) :=
  ⟨⟨"LD_VX_DT", 0xF007#16, 0xF0FF#16⟩, by decide, rfl, by simp [OpcodeRow.selects, encodeWord, encodeU_mask]⟩

theorem OwnRow.ldVxK (x : RegIx) : OwnRow.Statement (.ldVxK x) :=
  ⟨⟨"LD_VX_K", 0xF00A#16, 0xF0FF#16⟩, by decide, rfl, by simp [OpcodeRow.selects, encodeWord, encodeU_mask]⟩

theorem OwnRow.ldDtVx (x : RegIx) : OwnRow.Statement (.ldDtVx x) :=
  ⟨⟨"LD_DT_VX", 0xF015#16, 0xF0FF#16⟩, by decide, rfl, by simp [OpcodeRow.selects, encodeWord, encodeU_mask]⟩

theorem OwnRow.ldStVx (x : RegIx) : OwnRow.Statement (.ldStVx x) :=
  ⟨⟨"LD_ST_VX", 0xF018#16, 0xF0FF#16⟩, by decide, rfl, by simp [OpcodeRow.selects, encodeWord, encodeU_mask]⟩

theorem OwnRow.addI (x : RegIx) : OwnRow.Statement (.addI x) :=
  ⟨⟨"ADD_I", 0xF01E#16, 0xF0FF#16⟩, by decide, rfl, by simp [OpcodeRow.selects, encodeWord, encodeU_mask]⟩

theorem OwnRow.ldF (x : RegIx) : OwnRow.Statement (.ldF x) :=
  ⟨⟨"LD_F", 0xF029#16, 0xF0FF#16⟩, by decide, rfl, by simp [OpcodeRow.selects, encodeWord, encodeU_mask]⟩

theorem OwnRow.ldB (x : RegIx) : OwnRow.Statement (.ldB x) :=
  ⟨⟨"LD_B", 0xF033#16, 0xF0FF#16⟩, by decide, rfl, by simp [OpcodeRow.selects, encodeWord, encodeU_mask]⟩

theorem OwnRow.ldMemVx (x : RegIx) : OwnRow.Statement (.ldMemVx x) :=
  ⟨⟨"LD_MEM_VX", 0xF055#16, 0xF0FF#16⟩, by decide, rfl, by simp [OpcodeRow.selects, encodeWord, encodeU_mask]⟩

theorem OwnRow.ldVxMem (x : RegIx) : OwnRow.Statement (.ldVxMem x) :=
  ⟨⟨"LD_VX_MEM", 0xF065#16, 0xF0FF#16⟩, by decide, rfl, by simp [OpcodeRow.selects, encodeWord, encodeU_mask]⟩

end Sys2Proof.Laws
end

