-- ==== Sys2Proof/Tests/Slice0.lean ====
section
/-! SUPPORT. The model's own tests: the well-formedness smoke test, one word per constructor written out from the spec's
encoding, single steps with the results of spec/95_test_vectors.md (ids in brackets) or of the rules' examples, and for
each statement with hypotheses a state and operands that meet them all. -/

namespace Sys2Proof.Tests

open Sys2Proof Sys2Proof.Machine

/-! ### Helpers -/

/-- The state after one step. -/
def stepped (s : State) : State :=
  match step s with
  | .next t => t
  | .fault r => nomatch r
  | .refused _ => s

/-- The state after one step of the word `w` placed where `s` fetches. -/
def ran (w : Word) (s : State) : State := stepped (s.placeWord w)

/-- `V[x]` = `a` and `V[y]` = `b` on the reset state. -/
def regs2 (x : RegIx) (a : Byte) (y : RegIx) (b : Byte) : State := (State.reset.setReg x a).setReg y b

/-- The reset state with bytes stored from `a` up. -/
def withBytes (a : Nat) (bs : List Byte) : State := State.reset.setMem (Memory.writeBytes [] a bs)

/-- How many return addresses are held. -/
def withSp (n : Fin 17) (w : Word) : State := { State.reset with sp := n, stack := Vector.replicate 16 w }

/-- A faulted state. -/
def broken : State := State.reset.setMode (.faulted .illegalInstruction 1#16)

/-- A state that waits for a key to go to `V[r]`. -/
def waiting (r : RegIx) : State := State.reset.setMode (.awaitingKey r)

/-! ### Well-formedness: DRW's count is 0 to 15 (30_encoding.md R72) -/

theorem test_wf_drw_16_rows_refused : (Instr.drw 0 0 16).wellFormed = false := by decide
theorem test_wf_drw_15_rows_accepted : (Instr.drw 15 15 15).wellFormed = true := by decide

/-! ### One word per constructor, bit by bit from 30_encoding.md R70 and R74 -/

theorem test_decode_nop : decodeWord 0b0000_0000_0000_0000#16 = some .nop := by decide
theorem test_decode_cls : decodeWord 0b0000_0000_1110_0000#16 = some .cls := by decide
theorem test_decode_ret : decodeWord 0b0000_0000_1110_1110#16 = some .ret := by decide
theorem test_decode_jp : decodeWord 0b0001_1010_1011_1100#16 = some (.jp 0xABC#12) := by decide
theorem test_decode_call : decodeWord 0b0010_0011_0000_0001#16 = some (.call 0x301#12) := by decide
theorem test_decode_seImm : decodeWord 0b0011_1010_0000_0101#16 = some (.seImm 10 0x05#8) := by decide
theorem test_decode_sneImm : decodeWord 0b0100_1010_0000_0101#16 = some (.sneImm 10 0x05#8) := by decide
theorem test_decode_seReg : decodeWord 0b0101_0001_0010_0000#16 = some (.seReg 1 2) := by decide
theorem test_decode_ldImm : decodeWord 0b0110_1010_0010_1100#16 = some (.ldImm 10 0x2C#8) := by decide
theorem test_decode_addImm : decodeWord 0b0111_0001_1111_1110#16 = some (.addImm 1 0xFE#8) := by decide
theorem test_decode_ldReg : decodeWord 0b1000_0001_0010_0000#16 = some (.ldReg 1 2) := by decide
theorem test_decode_or : decodeWord 0b1000_0001_0010_0001#16 = some (.or 1 2) := by decide
theorem test_decode_and : decodeWord 0b1000_0001_0010_0010#16 = some (.and 1 2) := by decide
theorem test_decode_xor : decodeWord 0b1000_0001_0010_0011#16 = some (.xor 1 2) := by decide
theorem test_decode_addReg : decodeWord 0b1000_0011_1010_0100#16 = some (.addReg 3 10) := by decide
theorem test_decode_sub : decodeWord 0b1000_0001_0010_0101#16 = some (.sub 1 2) := by decide
theorem test_decode_shr : decodeWord 0b1000_0001_0010_0110#16 = some (.shr 1 2) := by decide
theorem test_decode_subn : decodeWord 0b1000_0001_0010_0111#16 = some (.subn 1 2) := by decide
theorem test_decode_shl : decodeWord 0b1000_0001_0010_1110#16 = some (.shl 1 2) := by decide
theorem test_decode_sneReg : decodeWord 0b1001_0001_0010_0000#16 = some (.sneReg 1 2) := by decide
theorem test_decode_ldI : decodeWord 0b1010_0010_1111_0000#16 = some (.ldI 0x2F0#12) := by decide
theorem test_decode_jpV0 : decodeWord 0b1011_0011_0000_0001#16 = some (.jpV0 0x301#12) := by decide
theorem test_decode_rnd : decodeWord 0b1100_0011_0000_1111#16 = some (.rnd 3 0x0F#8) := by decide
theorem test_decode_drw : decodeWord 0b1101_0001_0010_0101#16 = some (.drw 1 2 5) := by decide
theorem test_decode_skp : decodeWord 0b1110_0011_1001_1110#16 = some (.skp 3) := by decide
theorem test_decode_sknp : decodeWord 0b1110_0011_1010_0001#16 = some (.sknp 3) := by decide
theorem test_decode_ldVxDt : decodeWord 0b1111_0100_0000_0111#16 = some (.ldVxDt 4) := by decide
theorem test_decode_ldVxK : decodeWord 0b1111_0101_0000_1010#16 = some (.ldVxK 5) := by decide
theorem test_decode_ldDtVx : decodeWord 0b1111_0001_0001_0101#16 = some (.ldDtVx 1) := by decide
theorem test_decode_ldStVx : decodeWord 0b1111_0010_0001_1000#16 = some (.ldStVx 2) := by decide
theorem test_decode_addI : decodeWord 0b1111_0010_0001_1110#16 = some (.addI 2) := by decide
theorem test_decode_ldF : decodeWord 0b1111_0011_0010_1001#16 = some (.ldF 3) := by decide
theorem test_decode_ldB : decodeWord 0b1111_0110_0011_0011#16 = some (.ldB 6) := by decide
theorem test_decode_ldMemVx : decodeWord 0b1111_0010_0101_0101#16 = some (.ldMemVx 2) := by decide
theorem test_decode_ldVxMem : decodeWord 0b1111_0001_0110_0101#16 = some (.ldVxMem 1) := by decide

/-- The illegal words of vector [T14]. -/
theorem test_decode_illegal : ([0x00EF#16, 0x0E00#16, 0x0123#16, 0x5121#16, 0x8128#16, 0x812F#16, 0x9001#16,
    0xE000#16, 0xE19F#16, 0xF000#16, 0xF1FF#16, 0xF175#16].map decodeWord) =
    [none, none, none, none, none, none, none, none, none, none, none, none] := by decide

/-- R82's example, ADD V3, V10: bytes 0x83 0xA4, high byte first; one byte alone is truncated. -/
theorem test_encode_bytes : encode (.addReg 3 10) = [0x83#8, 0xA4#8] ∧ decode [0x83#8] = .error .truncated := by decide

/-- The host's question about a row: the table's word as a number. -/
theorem test_decodeTableWord : decodeTableWord 16 0xD125 = some (.drw 1 2 5) ∧ decodeTableWord 16 0x0001 = none := by
  decide

/-! ### Control flow (2.1 of the vectors) -/

theorem test_nop_T1 : (ran 0x0000#16 State.reset).pc = 0x202#16 := by decide
theorem test_nop_last_slot_T12 : (stepped (State.reset.setPc 0xFFE#16)).pc = 0x1000#16 := by decide
theorem test_jp_T2 : (ran 0x1ABC#16 State.reset).pc = 0xABC#16 := by decide
theorem test_call_at_top_T4 : let t := ran 0x2300#16 (State.reset.setPc 0xFFE#16)
    t.slot 0 = 0x1000#16 ∧ t.sp = 1 ∧ t.pc = 0x300#16 := by decide
theorem test_call_overflow_T6 : let t := ran 0x2300#16 (withSp 16 0xABC#16)
    t.mode = .faulted .stackOverflow 16#16 ∧ t.sp = 16 ∧ t.pc = 0x202#16 ∧ t.slot 15 = 0xABC#16 := by decide
theorem test_ret_S4 : let t := ran 0x00EE#16 ((withSp 1 0x204#16).setPc 0x300#16)
    t.pc = 0x204#16 ∧ t.sp = 0 ∧ t.slot 0 = 0x204#16 := by decide
theorem test_ret_underflow_T5 : let t := ran 0x00EE#16 State.reset
    t.mode = .faulted .stackUnderflow 0#16 ∧ t.sp = 0 ∧ t.pc = 0x202#16 := by decide
theorem test_jpV0_beyond_memory_T9 : let t := ran 0xBFFF#16 (State.reset.setReg 0 0xFF#8)
    t.pc = 0x10FE#16 ∧ stepResult t = .ok ∧ stepResult (stepped t) = .fault .address 0x10FE#16 := by decide
theorem test_jpV0_not_vx_T10 : (ran 0xB300#16 (regs2 0 0xFF#8 3 1#8)).pc = 0x3FF#16 := by decide
theorem test_fetch_out_of_range_T11 : let t := stepped (State.reset.setPc 0xFFF#16)
    t.mode = .faulted .address 0x1000#16 ∧ t.pc = 0xFFF#16 := by decide
theorem test_illegal_T13 : let t := ran 0x0001#16 State.reset
    t.mode = .faulted .illegalInstruction 1#16 ∧ t.pc = 0x202#16 ∧ stepped t = t := by decide

/-! ### Skips (2.2) -/

theorem test_seImm_K1_K2 : (ran 0x3A05#16 (State.reset.setReg 10 5#8)).pc = 0x204#16 ∧
    (ran 0x3A05#16 (State.reset.setReg 10 6#8)).pc = 0x202#16 := by decide
theorem test_sneImm_K3_K4 : (ran 0x4A05#16 (State.reset.setReg 10 5#8)).pc = 0x202#16 ∧
    (ran 0x4A05#16 (State.reset.setReg 10 6#8)).pc = 0x204#16 := by decide
theorem test_seReg_K5_K6 : (ran 0x5120#16 (regs2 1 0x33#8 2 0x33#8)).pc = 0x204#16 ∧
    (ran 0x5120#16 (regs2 1 0x33#8 2 0x34#8)).pc = 0x202#16 := by decide
theorem test_sneReg_K8_K9 : (ran 0x9120#16 (regs2 1 1#8 2 2#8)).pc = 0x204#16 ∧
    (ran 0x9770#16 (State.reset.setReg 7 9#8)).pc = 0x202#16 := by decide
theorem test_skp_K10_K11 : (ran 0xE39E#16 ((State.reset.setReg 3 7#8).setKeyFlag 7 true)).pc = 0x204#16 ∧
    (ran 0xE39E#16 ((State.reset.setReg 3 7#8).setKeyFlag 6 true)).pc = 0x202#16 := by decide
theorem test_skp_key_index_K14 : let t := ran 0xE39E#16 (State.reset.setReg 3 0x10#8)
    t.mode = .faulted .keyIndex 0x10#16 ∧ t.pc = 0x202#16 := by decide
theorem test_sknp_K12_K13 : (ran 0xE3A1#16 (State.reset.setReg 3 7#8)).pc = 0x204#16 ∧
    (ran 0xE3A1#16 ((State.reset.setReg 3 7#8).setKeyFlag 7 true)).pc = 0x202#16 := by decide
theorem test_sknp_key_index_K15 : (ran 0xE3A1#16 (State.reset.setReg 3 0xFF#8)).mode = .faulted .keyIndex 0xFF#16 := by
  decide

/-! ### Load, arithmetic, logic, shift, random (2.3) -/

theorem test_ldImm_A1_A2 : (ran 0x6A2C#16 State.reset).reg 10 = 0x2C#8 ∧ (ran 0x6FFF#16 State.reset).reg 15 = 0xFF#8 := by
  decide
theorem test_addImm_A3 : let t := ran 0x7105#16 (regs2 1 0xFE#8 15 0x55#8)
    t.reg 1 = 3#8 ∧ t.reg 15 = 0x55#8 := by decide
theorem test_ldReg_A6 : (ran 0x8120#16 (regs2 1 0x11#8 2 0x77#8)).reg 1 = 0x77#8 := by decide
theorem test_or_A7 : let t := ran 0x8121#16 ((regs2 1 0xF0#8 2 0x0F#8).setReg 15 0x55#8)
    t.reg 1 = 0xFF#8 ∧ t.reg 15 = 0x55#8 := by decide
theorem test_and_A8 : (ran 0x8122#16 (regs2 1 0xF0#8 2 0x3C#8)).reg 1 = 0x30#8 := by decide
theorem test_xor_A9 : (ran 0x8123#16 (regs2 1 0xF0#8 2 0x3C#8)).reg 1 = 0xCC#8 := by decide
theorem test_addReg_S2 : let t := ran 0x8124#16 (regs2 1 0xFA#8 2 0x0A#8)
    t.reg 1 = 4#8 ∧ t.reg 15 = 1#8 ∧ t.pc = 0x202#16 := by decide
theorem test_addReg_flag_stands_A15 : (ran 0x8F14#16 (regs2 15 0xFF#8 1 1#8)).reg 15 = 1#8 := by decide
theorem test_sub_S3 : let t := ran 0x8125#16 (regs2 1 5#8 2 10#8)
    t.reg 1 = 251#8 ∧ t.reg 15 = 0#8 := by decide
theorem test_sub_equal_A17 : let t := ran 0x8125#16 (regs2 1 10#8 2 10#8)
    t.reg 1 = 0#8 ∧ t.reg 15 = 1#8 := by decide
theorem test_shr_A21 : let t := ran 0x8126#16 (regs2 1 0xEE#8 2 5#8)
    t.reg 1 = 2#8 ∧ t.reg 15 = 1#8 ∧ t.reg 2 = 5#8 := by decide
theorem test_shr_x15_y15_A24_A25 : (ran 0x8F16#16 (regs2 15 0xAA#8 1 5#8)).reg 15 = 2#8 ∧
    (ran 0x81F6#16 (regs2 15 5#8 1 0xEE#8)).reg 1 = 2#8 := by decide
theorem test_subn_A27_A28 : (ran 0x8127#16 (regs2 1 10#8 2 5#8)).reg 1 = 0xFB#8 ∧
    (ran 0x8127#16 (regs2 1 5#8 2 10#8)).reg 15 = 1#8 := by decide
theorem test_shl_A30 : let t := ran 0x812E#16 (regs2 1 0xEE#8 2 0x81#8)
    t.reg 1 = 2#8 ∧ t.reg 15 = 1#8 := by decide
theorem test_shl_x15_A33 : (ran 0x8F1E#16 (regs2 15 0xAA#8 1 0x81#8)).reg 15 = 2#8 := by decide
/-- Vector [A35]: NN = 0 gives 0 for every byte drawn; the draw is used up. -/
theorem test_rnd_mask_zero_A35 : ∃ t, exec (.rnd 3 0#8) State.reset = .next t ∧ t.reg 3 = 0#8 ∧ t.draws = 1 :=
  ⟨_, rfl, by simp [State.reg, State.setReg], rfl⟩

/-! ### Index register and memory (2.4) -/

theorem test_ldI_M1 : (ran 0xA2F0#16 State.reset).i = 0x2F0#16 := by decide
theorem test_addI_M4_M5 : (ran 0xF21E#16 ((State.reset.setI 0xFFFF#16).setReg 2 1#8)).i = 0#16 ∧
    (ran 0xF21E#16 ((State.reset.setI 0xFFF#16).setReg 2 1#8)).i = 0x1000#16 := by decide
theorem test_ldF_M6_M9 : (ran 0xF329#16 (State.reset.setReg 3 0x0A#8)).i = 0x32#16 ∧
    (ran 0xF329#16 (State.reset.setReg 3 0xFF#8)).i = 1275#16 := by decide
theorem test_ldB_M10 : let t := ran 0xF033#16 ((State.reset.setReg 0 234#8).setI 0x300#16)
    Memory.readBytes t.mem 0x300 3 = [2#8, 3#8, 4#8] ∧ t.i = 0x300#16 := by decide
theorem test_ldB_out_of_range_M15_M17 : let t := ran 0xF033#16 ((State.reset.setReg 0 9#8).setI 0xFFE#16)
    t.mode = .faulted .address 0x1000#16 ∧ Memory.readBytes t.mem 0xFFE 2 = [0#8, 0#8] ∧
    (ran 0xF033#16 (State.reset.setI 0xFFFF#16)).mode = .faulted .address 0xFFFF#16 := by decide
theorem test_ldMemVx_M18 : let t := ran 0xF255#16 (((regs2 0 0x11#8 1 0x22#8).setReg 2 0x33#8).setI 0x400#16)
    Memory.readBytes t.mem 0x400 4 = [0x11#8, 0x22#8, 0x33#8, 0#8] ∧ t.i = 0x403#16 := by decide
theorem test_ldMemVx_edge_M20_M21 : (ran 0xFF55#16 (State.reset.setI 0xFF0#16)).i = 0x1000#16 ∧
    (ran 0xFF55#16 (State.reset.setI 0xFF1#16)).mode = .faulted .address 0x1000#16 := by decide
theorem test_ldVxMem_M22 : let t := ran 0xF265#16 (((withBytes 0x400 [0x11#8, 0x22#8, 0x33#8]).setReg 3 0x99#8).setI 0x400#16)
    t.reg 0 = 0x11#8 ∧ t.reg 1 = 0x22#8 ∧ t.reg 2 = 0x33#8 ∧ t.reg 3 = 0x99#8 ∧ t.i = 0x403#16 := by decide
theorem test_ldVxMem_glyph_M23 : let t := ran 0xF165#16 State.reset
    t.reg 0 = 0xF0#8 ∧ t.reg 1 = 0x90#8 ∧ t.i = 2#16 := by decide

/-! ### Display (2.5) -/

theorem test_cls_D1 : (ran 0x00E0#16 (State.reset.setDisplay (Display.flip Display.clear 63 31))).pixel 63 31 = false := by
  decide
/-- Vector [D5]: rows wrap at 32, bit 7 is the leftmost pixel. -/
theorem test_drw_wraps_D5 :
    let t := ran 0xD012#16 (((withBytes 0x300 [0x80#8, 0x40#8]).setReg 1 31#8).setI 0x300#16)
    t.pixel 0 31 = true ∧ t.pixel 1 0 = true ∧ t.pixel 0 0 = false ∧ t.reg 15 = 0#8 := by decide
/-- Vectors [D6] and [D9]: a lit pixel cleared is a collision; N = 0 reads nothing, cannot fault and clears the flag. -/
theorem test_drw_collision_D6_D9 :
    let t := ran 0xD011#16 (((withBytes 0x300 [0xC0#8]).setDisplay (Display.flip Display.clear 1 0)).setI 0x300#16)
    t.pixel 0 0 = true ∧ t.pixel 1 0 = false ∧ t.reg 15 = 1#8 ∧
    stepResult (ran 0xD010#16 (State.reset.setI 0xFFFF#16)) = .ok ∧
    (ran 0xD010#16 ((State.reset.setI 0xFFFF#16).setReg 15 1#8)).reg 15 = 0#8 := by decide

/-! ### Timers and keys (2.6) -/

theorem test_ldVxDt_Q1 : (ran 0xF407#16 (State.reset.setDt 0x2A#8)).reg 4 = 0x2A#8 := by decide
theorem test_ldDtVx_Q2 : (ran 0xF115#16 (State.reset.setReg 1 60#8)).dt = 60#8 := by decide
theorem test_ldStVx_Q3_Q6 : soundActive (ran 0xF218#16 (State.reset.setReg 2 3#8)) = true ∧
    soundActive (ran 0xF218#16 (State.reset.setSt 5#8)) = false := by decide
theorem test_ldVxK_Q7 : let t := ran 0xF50A#16 (State.reset.setKeyFlag 9 true)
    t.mode = .awaitingKey 5 ∧ t.pc = 0x202#16 ∧ t.reg 5 = 0#8 ∧ stepResult t = .awaitingKey := by decide
theorem test_key_wait_Q8 : let t := stepped (((waiting 5).setKeyFlag 9 true).setKeyFlag 3 true)
    t.reg 5 = 3#8 ∧ t.mode = .running ∧ t.pc = 0x200#16 := by decide

/-! ### Host operations (2.7) -/

theorem test_load_too_large_H2 : hostLoad (List.replicate 3585 0#8) State.reset =
    (State.reset.setMode (.faulted .loadTooLarge 3585#16), .error .loadTooLarge 3585#16) := by
  rw [hostLoad, List.length_replicate, if_pos (by decide)]
  rfl
theorem test_load_H4 : let r := hostLoad [0x12#8, 0x00#8] (State.reset.setPc 0x345#16)
    Memory.readBytes r.1.mem 0x200 2 = [0x12#8, 0#8] ∧ r.1.pc = 0x345#16 ∧ r.2 = .ok := by decide
theorem test_set_key_H6 : (hostSetKey 15 true State.reset).1 = State.reset.setKeyFlag 15 true ∧
    (hostSetKey 16 true State.reset).2 = .error .hostKeyIndex 16#16 := by decide
theorem test_tick_Q5_H7 : (tickTimers (State.reset.setSt 255#8)).st = 254#8 ∧
    (tickTimers (broken.setDt 2#8)).dt = 1#8 ∧ (tickTimers State.reset).dt = 0#8 := by decide
theorem test_reset_H5 : hostReset ((broken.setSt 9#8).setMem [(0, 0#8), (0x200, 0x12#8)]) = State.reset := by decide

/-! ### Memory keeps its canonical form: writing the reset contents unlists an address -/

theorem test_memory_canonical : Memory.write (Memory.write [] 0x300 7#8) 0x300 0#8 = [] ∧
    Memory.write [] 0 0xF0#8 = [] ∧ Memory.write (Memory.write [] 9 7#8) 3 1#8 = [(3, 1#8), (9, 7#8)] := by decide

/-! ### The written form (R80; lines of spec/95_test_vectors.md, part 3) -/

theorem test_listing : (Instr.ldImm 0 0xFA#8).listing = "LD V0, 0xFA" ∧ (Instr.jp 0x20A#12).listing = "JP 0x20A" ∧
    (Instr.ldVxMem 2).listing = "LD V2, [I]" ∧ (Instr.drw 0 1 1).listing = "DRW V0, V1, 1" ∧
    (Instr.drw 10 11 10).listing = "DRW VA, VB, 10" ∧ (Instr.drw 0 1 15).listing = "DRW V0, V1, 15" := by decide

/-! ### Witnesses: for each statement with hypotheses, a state and operands that meet them all -/

theorem test_witness_DecodeOfEncodeIsTheInstruction : (Instr.drw 1 2 15).WellFormed := by decide
theorem test_witness_EncodeOfDecodeIsTheWord : decodeWord 0xD12F#16 = some (.drw 1 2 15) := by decide
theorem test_witness_RowIsSelectedExactlyWhenItsFormIsDecoded :
    (⟨"SKP", 0xE09E#16, 0xF0FF#16⟩ : OpcodeRow) ∈ opcodeMap ∧ 0xE39E#16 &&& 0xF0FF#16 = 0xE09E#16 := by decide
/-- At the last address a fetch can be made from. -/
theorem test_witness_StepRunsTheDecodedInstruction : let s := (withBytes 0xFFE [0x23#8, 0x00#8]).setPc 0xFFE#16
    s.mode = .running ∧ s.pc.toNat ≤ 0x0FFE ∧
    decode [Memory.read s.mem s.pc.toNat, Memory.read s.mem (s.pc.toNat + 1)] = .ok (.call 0x300#12, []) := by decide
theorem test_witness_FetchAndDecodeFaultsAreTaken_fetch : let s := State.reset.setPc 0xFFF#16
    s.mode = .running ∧ 0x0FFE < s.pc.toNat := by decide
theorem test_witness_FetchAndDecodeFaultsAreTaken_decode : let s := withBytes 0x200 [0x00#8, 0x01#8]
    s.mode = .running ∧ s.pc.toNat ≤ 0x0FFE ∧
    0x0001#16 = Memory.read s.mem s.pc.toNat ++ Memory.read s.mem (s.pc.toNat + 1) ∧ decodeWord 0x0001#16 = none := by
  decide
theorem test_witness_FaultedStepChangesNothing : broken.mode = .faulted .illegalInstruction 1#16 := by decide
theorem test_witness_FaultRecordIsKeptUntilReset : broken.mode = .faulted .illegalInstruction 1#16 ∧
    HostOp.tickTimers ≠ .reset ∧ applyOp .tickTimers broken = .next (tickTimers broken) :=
  ⟨rfl, by decide, rfl⟩
theorem test_witness_KeyWaitTakesTheLowestPressedKey_none : (waiting 5).mode = .awaitingKey 5 ∧
    ∀ k, (waiting 5).key k = false := by decide
theorem test_witness_KeyWaitTakesTheLowestPressedKey_some : let s := (waiting 15).setKeyFlag 15 true
    s.mode = .awaitingKey 15 ∧ s.key 15 = true ∧ ∀ j, j < 15 → s.key j = false := by decide
theorem test_witness_OnlyControlFlowMovesPc : exec .cls State.reset = .next (State.reset.setDisplay Display.clear) ∧
    Instr.cls.name ∉ ["JP", "CALL", "RET", "JP_V0", "SE_IMM", "SNE_IMM", "SE_REG", "SNE_REG", "SKP", "SKNP"] :=
  ⟨rfl, by decide⟩
theorem test_witness_NopDoesNothing : 0x0001 ≤ (0x0FFF#16).toNat ∧ (0x0FFF#16).toNat ≤ 0x0FFF ∧
    0x0FFF#16 ≠ 0x00E0#16 ∧ 0x0FFF#16 ≠ 0x00EE#16 := by decide
theorem test_witness_CallPushesAndJumps : (withSp 15 0#16).sp.val < 16 := by decide
theorem test_witness_RetPopsTheReturnAddress : (withSp 16 0x204#16).sp.val = (15 : Fin 16).val + 1 ∧
    (withSp 1 0x204#16).sp.val = (0 : Fin 16).val + 1 := by decide
theorem test_witness_not_faulted : ¬ isFaulted State.reset := by
  rintro ⟨c, info, h⟩
  cases h
theorem test_witness_StackFaultsAreTaken : ¬ isFaulted (withSp 16 0#16) ∧ (withSp 16 0#16).sp.val = 16 ∧
    State.reset.sp.val = 0 :=
  ⟨(by rintro ⟨c, info, h⟩; cases h), by decide, by decide⟩
theorem test_witness_ReturnUndoesCall : State.reset.sp.val < 16 ∧
    ∀ t, exec (.call 0x300#12) State.reset = .next t → (withSp 1 0x200#16).sp = t.sp ∧ t.slot 0 = 0x200#16 :=
  ⟨by decide, fun t h => by cases h; exact ⟨rfl, rfl⟩⟩
/-- The state after the CALL itself meets the hypothesis on `v`. -/
theorem test_witness_ReturnUndoesCall_v : ∃ v : State, ∀ t, exec (.call 0x300#12) State.reset = .next t →
    v.sp = t.sp ∧ ∀ k, v.slot k = t.slot k :=
  ⟨{ State.reset with sp := 1, stack := State.reset.stack.set 0 0x200#16 }, fun t h => by cases h; exact ⟨rfl, fun _ => rfl⟩⟩
theorem test_witness_RegisterSkipsAreComplementary : 0xF#4 ≠ 0#4 ∧ 0x1#4 ≠ 0#4 := by decide
theorem test_witness_RndMasksAFreshByte : (0x7F#8).getLsbD 7 = false ∧ (0xFE#8).getLsbD 0 = false := by decide
theorem test_witness_KeySkipsTestTheNamedKey : ((State.reset.setReg 3 15#8).reg 3).toNat = (15 : Fin 16).val := by decide
theorem test_witness_KeyIndexFaultsAreTaken : ¬ isFaulted (State.reset.setReg 3 16#8) ∧
    15 < ((State.reset.setReg 3 16#8).reg 3).toNat :=
  ⟨(by rintro ⟨c, info, h⟩; cases h), by decide⟩
theorem test_witness_x_not_15 : (14 : RegIx) ≠ 15 := by decide
theorem test_witness_LdBStoresDecimalDigits : (State.reset.setI 0xFFD#16).i.toNat + 2 ≤ 0x0FFF := by decide
theorem test_witness_LdMemVxStoresTheRegisters : (State.reset.setI 0xFF0#16).i.toNat + (15 : RegIx).val ≤ 0x0FFF := by
  decide
theorem test_witness_LdVxMemLoadsTheRegisters : (State.reset.setI 0xFFF#16).i.toNat + (0 : RegIx).val ≤ 0x0FFF := by decide
theorem test_witness_AddressFaultsAreTaken : ¬ isFaulted (State.reset.setI 0xFFE#16) ∧
    0x0FFF < (State.reset.setI 0xFFE#16).i.toNat + 2 ∧ 0x0FFF < (State.reset.setI 0xFFE#16).i.toNat + (2 : RegIx).val ∧
    0x0FFF < (State.reset.setI 0xFFE#16).i.toNat + 3 - 1 :=
  ⟨(by rintro ⟨c, info, h⟩; cases h), by decide, by decide, by decide⟩
theorem test_witness_DrwTogglesTheCoveredCells : (Instr.drw 0 1 15).WellFormed ∧
    (State.reset.setI 0xFF1#16).i.toNat + 15 - 1 ≤ 0x0FFF ∧ (Instr.drw 0 1 0).WellFormed := by decide
/-- Both clauses of the collision: glyph 0 at the origin covers the cell (0, 0), which may be lit or not. -/
theorem test_witness_DrwTogglesTheCoveredCells_clauses : SpriteCovers State.reset 0 0 5 0 0 ∧
    (State.reset.setDisplay (Display.flip Display.clear 0 0)).pixel 0 0 = true ∧ State.reset.pixel 0 0 = false :=
  ⟨⟨0, 0, by decide⟩, by decide, by decide⟩
theorem test_witness_DrwTwiceRestoresTheDisplay : (Instr.drw 0 1 5).WellFormed ∧ State.reset.i.toNat + 5 - 1 ≤ 0x0FFF ∧
    ∃ t, exec (.drw 0 1 5) State.reset = .next t ∧ t.reg 0 = State.reset.reg 0 ∧ t.reg 1 = State.reset.reg 1 ∧
      t.i = State.reset.i ∧ t.mem = State.reset.mem :=
  ⟨by decide, by decide, _, rfl, by decide, by decide, by decide, by decide⟩
theorem test_witness_exec_answers : exec .nop State.reset = .next State.reset := rfl
theorem test_witness_OnlyClsDrwAndResetChangeTheDisplay : Instr.nop.name ∉ ["CLS", "DRW"] ∧
    HostOp.soundActive ≠ .reset ∧ HostOp.soundActive ≠ .step ∧ applyOp .soundActive State.reset = .next State.reset :=
  ⟨by decide, by decide, by decide, rfl⟩
/-- A step that runs an instruction, one the statements name no writer by, and one that runs none. -/
theorem test_witness_StepRuns : StepRuns State.reset .nop ∧ (∀ i, StepRuns State.reset i → i = .nop) ∧
    (∃ t, step State.reset = .next t) ∧ (∀ i, ¬ StepRuns (waiting 5) i) ∧ ∃ t, step (waiting 5) = .next t :=
  ⟨⟨rfl, by decide, by decide⟩, fun i h => Option.some.inj (h.2.2.symm.trans (by decide)), ⟨_, rfl⟩,
    fun i h => (nomatch h.1), _, rfl⟩
theorem test_witness_other_operations : HostOp.soundActive ≠ .reset ∧ HostOp.soundActive ≠ .step ∧
    (∀ bytes, HostOp.soundActive ≠ .load bytes) ∧ HostOp.soundActive ≠ .tickTimers ∧
    applyOp .soundActive State.reset = .next State.reset :=
  ⟨by decide, by decide, fun _ h => (nomatch h), by decide, rfl⟩
theorem test_witness_OnlyStoresWriteMemory : Instr.nop.name ∉ ["LD_B", "LD_MEM_VX"] ∧
    exec .nop State.reset = .next State.reset := ⟨by decide, rfl⟩
theorem test_witness_NoInstructionWritesKeys : exec .nop State.reset = .next State.reset ∧
    ∃ t, step State.reset = .next t := ⟨rfl, _, rfl⟩
theorem test_witness_StackAndTimersHaveTheirOwnWriters : Instr.nop.name ∉ ["CALL", "RET"] ∧
    Instr.nop.name ≠ "LD_DT_VX" ∧ Instr.nop.name ≠ "LD_ST_VX" ∧ exec .nop State.reset = .next State.reset :=
  ⟨by decide, by decide, by decide, rfl⟩
theorem test_witness_OnlyNamedRegistersAreWritten : (4 : RegIx) ∉ mayWriteRegs (.ldVxMem 3) ∧
    (3 : RegIx) ∈ mayWriteRegs (.ldVxMem 3) ∧ ∃ t, exec (.ldVxMem 3) State.reset = .next t :=
  ⟨by decide, by decide, _, rfl⟩
theorem test_witness_FlagIsZeroOrOne : ∃ t, exec (.shr 14 15) State.reset = .next t ∧ (14 : RegIx) ≠ 15 :=
  ⟨_, rfl, by decide⟩
theorem test_witness_StepKeepsTheInvariant : StateInv State.reset ∧ ∃ t, step State.reset = .next t :=
  ⟨⟨rfl, by decide, by decide⟩, _, rfl⟩
theorem test_witness_EveryRunOfOperationsKeepsTheInvariant : StateInv State.reset ∧ ∃ t,
    runOps [.load [0x12#8, 0x00#8], .tickTimers, .step] State.reset = .next t ∧ t.pc = 0x200#16 :=
  ⟨⟨rfl, by decide, by decide⟩, _, rfl, by decide⟩
theorem test_witness_EndedRunStaysPut : runEnded (withBytes 0x200 [0x12#8, 0x00#8]) := ⟨by decide, by decide, by decide⟩
theorem test_witness_LoadCopiesTheImage : ([0x12#8, 0x00#8] : List Byte).length ≤ 3584 := by decide
theorem test_witness_HostMisuseIsReportedAndTerminal : 3584 < (List.replicate 3585 (0#8 : Byte)).length ∧ 15 < 16 ∧
    isFaulted broken :=
  ⟨by rw [List.length_replicate]; decide, by decide, _, _, rfl⟩
theorem test_witness_SetKeyWritesOneFlag : (State.reset.setKeyFlag 15 true).key 15 = true := by decide
theorem test_witness_SoundIsActiveWhileStIsPositive : (State.reset.setSt 1#8).st = 1#8 := by decide

end Sys2Proof.Tests
end

section
/-! PROOFS. The opcode map against the decoder (30_encoding.md R74). Both read a word by its four nibbles: the row a
word selects is looked up in the map, and the lookup names the form the decoder answers. -/

namespace Sys2Proof

/-! ### A word as its four nibbles (R70) -/

@[simp] theorem nibble1_and (a b : Word) : nibble1 (a &&& b) = nibble1 a &&& nibble1 b := by
  simp only [nibble1, BitVec.extractLsb'_and]

@[simp] theorem nibble2_and (a b : Word) : nibble2 (a &&& b) = nibble2 a &&& nibble2 b := by
  simp only [nibble2, BitVec.extractLsb'_and]

@[simp] theorem nibble3_and (a b : Word) : nibble3 (a &&& b) = nibble3 a &&& nibble3 b := by
  simp only [nibble3, BitVec.extractLsb'_and]

@[simp] theorem nibble4_and (a b : Word) : nibble4 (a &&& b) = nibble4 a &&& nibble4 b := by
  simp only [nibble4, BitVec.extractLsb'_and]

/-- A word is determined by its nibbles. -/
theorem eq_iff_nibbles (a b : Word) : a = b ↔
    nibble1 a = nibble1 b ∧ nibble2 a = nibble2 b ∧ nibble3 a = nibble3 b ∧ nibble4 a = nibble4 b := by
  refine ⟨by rintro rfl; simp, fun ⟨h1, h2, h3, h4⟩ => ?_⟩
  simp only [nibble1, nibble2, nibble3, nibble4, ← BitVec.toNat_inj, BitVec.extractLsb'_toNat,
    Nat.shiftRight_eq_div_pow] at h1 h2 h3 h4 ⊢
  omega

/-- The low byte is nibble3 above nibble4. -/
theorem fieldNN_eq_iff_nibbles (w : Word) (nn : Byte) :
    fieldNN w = nn ↔ nibble3 w = nn.extractLsb' 4 4 ∧ nibble4 w = nn.extractLsb' 0 4 := by
  simp only [fieldNN, nibble3, nibble4, ← BitVec.toNat_inj, BitVec.extractLsb'_toNat, Nat.shiftRight_eq_div_pow]
  omega

@[simp] theorem nibble1_ofNat (n : Nat) : nibble1 (BitVec.ofNat 16 n) = BitVec.ofNat 4 (n / 0x1000) := by
  simp only [nibble1, ← BitVec.toNat_inj, BitVec.extractLsb'_toNat, BitVec.toNat_ofNat, Nat.shiftRight_eq_div_pow]
  omega

@[simp] theorem nibble2_ofNat (n : Nat) : nibble2 (BitVec.ofNat 16 n) = BitVec.ofNat 4 (n / 0x100) := by
  simp only [nibble2, ← BitVec.toNat_inj, BitVec.extractLsb'_toNat, BitVec.toNat_ofNat, Nat.shiftRight_eq_div_pow]
  omega

@[simp] theorem nibble3_ofNat (n : Nat) : nibble3 (BitVec.ofNat 16 n) = BitVec.ofNat 4 (n / 0x10) := by
  simp only [nibble3, ← BitVec.toNat_inj, BitVec.extractLsb'_toNat, BitVec.toNat_ofNat, Nat.shiftRight_eq_div_pow]
  omega

@[simp] theorem nibble4_ofNat (n : Nat) : nibble4 (BitVec.ofNat 16 n) = BitVec.ofNat 4 n := by
  simp only [nibble4, ← BitVec.toNat_inj, BitVec.extractLsb'_toNat, BitVec.toNat_ofNat, Nat.shiftRight_eq_div_pow]
  omega

/-- A mask nibble of ones keeps every bit. -/
@[simp] theorem nibble_and_15 (v : BitVec 4) : v &&& 15#4 = v := BitVec.and_allOnes

/-! ### The row a word selects -/

/-- The first row of the opcode map that the word selects. -/
def selectedRow (w : Word) : Option OpcodeRow := opcodeMap.find? (·.selects w)

theorem selects_iff (r : OpcodeRow) (w : Word) : r.selects w = true ↔ w &&& r.mask = r.pattern := by
  simp [OpcodeRow.selects]

/-- Mask and match, nibble by nibble. -/
@[simp] theorem selects_iff_nibbles (r : OpcodeRow) (w : Word) : r.selects w = true ↔
    nibble1 w &&& nibble1 r.mask = nibble1 r.pattern ∧ nibble2 w &&& nibble2 r.mask = nibble2 r.pattern ∧
    nibble3 w &&& nibble3 r.mask = nibble3 r.pattern ∧ nibble4 w &&& nibble4 r.mask = nibble4 r.pattern := by
  simp only [selects_iff, eq_iff_nibbles (w &&& r.mask), nibble1_and, nibble2_and, nibble3_and, nibble4_and]

/-- Of two different rows, some bit both masks keep is 1 in one pattern and 0 in the other. -/
theorem opcodeMap_patterns_differ : ∀ r ∈ opcodeMap, ∀ r' ∈ opcodeMap,
    r.pattern &&& r'.mask = r'.pattern &&& r.mask → r = r' := by decide

theorem opcodeMap_names_differ : ∀ r ∈ opcodeMap, ∀ r' ∈ opcodeMap, r.name = r'.name → r = r' := by decide

theorem opcodeMap_rows_disjoint {w : Word} {r r' : OpcodeRow} (hr : r ∈ opcodeMap) (hr' : r' ∈ opcodeMap)
    (h : w &&& r.mask = r.pattern) (h' : w &&& r'.mask = r'.pattern) : r = r' :=
  opcodeMap_patterns_differ r hr r' hr' (by rw [← h, ← h', BitVec.and_assoc, BitVec.and_assoc, BitVec.and_comm r.mask])

theorem selectedRow_selects {w : Word} {r : OpcodeRow} (h : selectedRow w = some r) :
    r ∈ opcodeMap ∧ w &&& r.mask = r.pattern :=
  ⟨List.mem_of_find?_eq_some h, (selects_iff r w).1 (by simpa using List.find?_some h)⟩

theorem selectedRow_eq_none_iff (w : Word) : selectedRow w = none ↔ ∀ r ∈ opcodeMap, w &&& r.mask ≠ r.pattern := by
  simp only [selectedRow, List.find?_eq_none, selects_iff, ne_eq]

/-- Since the rows are disjoint, the first row selected is the only one: the order of testing does not matter (R74). -/
theorem selectedRow_eq_some_iff {r : OpcodeRow} (hr : r ∈ opcodeMap) (w : Word) :
    selectedRow w = some r ↔ w &&& r.mask = r.pattern := by
  refine ⟨fun h => (selectedRow_selects h).2, fun h => ?_⟩
  cases h' : selectedRow w with
  | none => exact absurd h ((selectedRow_eq_none_iff w).1 h' r hr)
  | some r' =>
    obtain ⟨hr', hsel⟩ := selectedRow_selects h'
    rw [opcodeMap_rows_disjoint hr' hr hsel h]

/-- A row is known by its name. -/
theorem selectedRow_name_iff {r : OpcodeRow} (hr : r ∈ opcodeMap) (w : Word) :
    (selectedRow w).map OpcodeRow.name = some r.name ↔ selectedRow w = some r := by
  refine ⟨fun h => ?_, fun h => by rw [h, Option.map_some]⟩
  obtain ⟨r', hr', hname⟩ := Option.map_eq_some_iff.1 h
  rw [hr', opcodeMap_names_differ r' (selectedRow_selects hr').1 r hr hname]

/-! ### The lookup and the decoder agree

With nibble1 known, the lookup passes over the rows of every other opcode; on the rows that remain it asks the same
questions of the other nibbles, in the same order, as the decoder's part for that opcode. -/

/-- The lookup as a chain of tests: the name of the first row the word selects. -/
@[simp] theorem find?_selects_cons_name (r : OpcodeRow) (rs : List OpcodeRow) (w : Word) :
    ((r :: rs).find? (·.selects w)).map OpcodeRow.name =
      if r.selects w then some r.name else (rs.find? (·.selects w)).map OpcodeRow.name := by
  cases h : r.selects w <;> simp [h, -selects_iff_nibbles]

/-- The decoder as a chain of tests: the name of the first form whose test holds. -/
@[simp] theorem ite_some_map_name (c : Prop) [Decidable c] (i : Instr) (o : Option Instr) :
    (if c then some i else o).map Instr.name = if c then some i.name else o.map Instr.name :=
  apply_ite (Option.map Instr.name) c (some i) o

theorem decode0_name {w : Word} (h : nibble1 w = 0x0#4) :
    (decode0 w).map Instr.name = (selectedRow w).map OpcodeRow.name := by
  simp [decode0, eq_iff_nibbles w, Instr.name, selectedRow, opcodeMap, opcodeMapLow, opcodeMapMid, opcodeMapHigh, h]

theorem decode8_name {w : Word} (h : nibble1 w = 0x8#4) :
    (decode8 w).map Instr.name = (selectedRow w).map OpcodeRow.name := by
  simp [decode8, Instr.name, selectedRow, opcodeMap, opcodeMapLow, opcodeMapMid, opcodeMapHigh, h]

theorem decodeE_name {w : Word} (h : nibble1 w = 0xE#4) :
    (decodeE w).map Instr.name = (selectedRow w).map OpcodeRow.name := by
  simp [decodeE, fieldNN_eq_iff_nibbles, Instr.name, selectedRow, opcodeMap, opcodeMapLow, opcodeMapMid, opcodeMapHigh,
    h]

theorem decodeF_name {w : Word} (h : nibble1 w = 0xF#4) :
    (decodeF w).map Instr.name = (selectedRow w).map OpcodeRow.name := by
  simp [decodeF, fieldNN_eq_iff_nibbles, Instr.name, selectedRow, opcodeMap, opcodeMapLow, opcodeMapMid, opcodeMapHigh,
    h]

/-- The twelve opcodes with one row of the map each. -/
theorem decodeWord_name_of_one_row {w : Word}
    (h : nibble1 w ∈ [0x1#4, 0x2#4, 0x3#4, 0x4#4, 0x5#4, 0x6#4, 0x7#4, 0x9#4, 0xA#4, 0xB#4, 0xC#4, 0xD#4]) :
    (decodeWord w).map Instr.name = (selectedRow w).map OpcodeRow.name := by
  simp only [List.mem_cons, List.not_mem_nil, or_false] at h
  rcases h with h | h | h | h | h | h | h | h | h | h | h | h <;>
    simp [decodeWord, decodeRegPair, Instr.name, selectedRow, opcodeMap, opcodeMapLow, opcodeMapMid, opcodeMapHigh, h]

/-- The lookup names the form the decoder answers. -/
theorem decodeWord_name (w : Word) : (decodeWord w).map Instr.name = (selectedRow w).map OpcodeRow.name := by
  have opcodes : ∀ v : BitVec 4, v = 0x0#4 ∨ v = 0x8#4 ∨ v = 0xE#4 ∨ v = 0xF#4 ∨
      v ∈ [0x1#4, 0x2#4, 0x3#4, 0x4#4, 0x5#4, 0x6#4, 0x7#4, 0x9#4, 0xA#4, 0xB#4, 0xC#4, 0xD#4] := by decide
  rcases opcodes (nibble1 w) with h | h | h | h | h
  · simpa [decodeWord, h] using decode0_name h
  · simpa [decodeWord, h] using decode8_name h
  · simpa [decodeWord, h] using decodeE_name h
  · simpa [decodeWord, h] using decodeF_name h
  · exact decodeWord_name_of_one_row h

/-! ### The obligation -/

theorem selects_iff_decodes {r : OpcodeRow} (hr : r ∈ opcodeMap) (w : Word) :
    w &&& r.mask = r.pattern ↔ ∃ i, decodeWord w = some i ∧ i.name = r.name :=
  calc w &&& r.mask = r.pattern
    _ ↔ selectedRow w = some r := (selectedRow_eq_some_iff hr w).symm
    _ ↔ (selectedRow w).map OpcodeRow.name = some r.name := (selectedRow_name_iff hr w).symm
    _ ↔ (decodeWord w).map Instr.name = some r.name := by rw [decodeWord_name]
    _ ↔ ∃ i, decodeWord w = some i ∧ i.name = r.name := Option.map_eq_some_iff

theorem decodeWord_eq_none_iff_unselected (w : Word) :
    decodeWord w = none ↔ ∀ r ∈ opcodeMap, w &&& r.mask ≠ r.pattern :=
  calc decodeWord w = none
    _ ↔ (decodeWord w).map Instr.name = none := Option.map_eq_none_iff.symm
    _ ↔ selectedRow w = none := by rw [decodeWord_name, Option.map_eq_none_iff]
    _ ↔ ∀ r ∈ opcodeMap, w &&& r.mask ≠ r.pattern := selectedRow_eq_none_iff w

/-- Settles O3: a word is looked up in the opcode map, where at most one row is selected, and the row found bears the
name of the form the decoder answers. -/
theorem rowIsSelectedExactlyWhenItsFormIsDecoded : Obligations.RowIsSelectedExactlyWhenItsFormIsDecoded :=
  ⟨rfl, fun w _ hr => selects_iff_decodes hr w, fun _ _ _ hr hr' => opcodeMap_rows_disjoint hr hr',
    decodeWord_eq_none_iff_unselected⟩

end Sys2Proof
end

section
/-! PROOFS. NOP (40_control_flow.md R100): the row of NOP holds the word 0x0000 alone, and below 0x1000 the decoder knows
only the three words without operands. -/

namespace Sys2Proof

open Sys2Proof.Machine

theorem exec_nop (s : State) : exec .nop s = .next s := rfl

theorem name_eq_NOP_iff (i : Instr) : i.name = "NOP" ↔ i = .nop := by
  cases i <;> simp [Instr.name]

/-- The mask of NOP's row keeps all 16 bits. -/
theorem decodeWord_eq_nop_iff (w : Word) : decodeWord w = some .nop ↔ w = 0x0000#16 :=
  calc decodeWord w = some .nop
    _ ↔ ∃ i, decodeWord w = some i ∧ i.name = "NOP" := by simp only [name_eq_NOP_iff, exists_eq_right]
    _ ↔ w &&& 0xFFFF#16 = 0x0000#16 :=
      (selects_iff_decodes (r := ⟨"NOP", 0x0000#16, 0xFFFF#16⟩) (by decide) w).symm
    _ ↔ w = 0x0000#16 := by rw [show w &&& 0xFFFF#16 = w from BitVec.and_allOnes]

theorem nibble1_eq_zero_iff (w : Word) : nibble1 w = 0x0#4 ↔ w.toNat < 0x1000 := by
  simp only [nibble1, ← BitVec.toNat_inj, BitVec.extractLsb'_toNat, BitVec.toNat_ofNat, Nat.shiftRight_eq_div_pow]
  omega

/-- There is no general form 0NNN (R75). -/
theorem decodeWord_of_lt_0x1000 {w : Word} (h : w.toNat < 0x1000) : decodeWord w = decode0 w := by
  simp [decodeWord, (nibble1_eq_zero_iff w).2 h]

theorem decode0_eq_none {w : Word} (hnop : w ≠ 0x0000#16) (hcls : w ≠ 0x00E0#16) (hret : w ≠ 0x00EE#16) :
    decode0 w = none := by
  rw [decode0, if_neg hnop, if_neg hcls, if_neg hret]

/-- Settles O13: the word of NOP by its row of the opcode map, the illegal words by the decoder's part for nibble1 = 0. -/
theorem nopDoesNothing : Obligations.NopDoesNothing := by
  refine ⟨exec_nop, decodeWord_eq_nop_iff, fun w hpos hlt hcls hret => ?_⟩
  have hnop : w ≠ 0x0000#16 := by
    rintro rfl
    exact absurd hpos (by decide)
  rw [decodeWord_of_lt_0x1000 (by omega), decode0_eq_none hnop hcls hret]

end Sys2Proof
end

section
/-! PROOFS. The skips on bytes (41_skips.md R110 to R114): a skip writes `pc` alone, SE and SNE of one operand pair ask
the same question and answer it oppositely, and the register forms stand only where nibble4 is 0. -/

namespace Sys2Proof

open Sys2Proof.Machine

/-! ### What the skips do -/

/-- A write of `pc` leaves every other piece of state alone. -/
theorem frame_setPc (s : State) (w : Word) : Frame { pc := true } s (s.setPc w) := by
  constructor <;> simp

theorem exec_seImm (x : RegIx) (nn : Byte) (s : State) :
    exec (.seImm x nn) s = .next (s.setPc (if s.reg x = nn then s.pc + 2#16 else s.pc)) := by
  simp [exec, execSeImm, State.skipIf_eq]

theorem exec_sneImm (x : RegIx) (nn : Byte) (s : State) :
    exec (.sneImm x nn) s = .next (s.setPc (if s.reg x = nn then s.pc else s.pc + 2#16)) := by
  simp [exec, execSneImm, State.skipIf_eq]

theorem exec_seReg (x y : RegIx) (s : State) :
    exec (.seReg x y) s = .next (s.setPc (if s.reg x = s.reg y then s.pc + 2#16 else s.pc)) := by
  simp [exec, execSeReg, State.skipIf_eq]

theorem exec_sneReg (x y : RegIx) (s : State) :
    exec (.sneReg x y) s = .next (s.setPc (if s.reg x = s.reg y then s.pc else s.pc + 2#16)) := by
  simp [exec, execSneReg, State.skipIf_eq]

/-! ### Their words -/

theorem decodeWord_of_nibble1_3 {w : Word} (h : nibble1 w = 0x3#4) :
    decodeWord w = some (.seImm (fieldX w) (fieldNN w)) := by
  simp [decodeWord, h]

theorem decodeWord_of_nibble1_4 {w : Word} (h : nibble1 w = 0x4#4) :
    decodeWord w = some (.sneImm (fieldX w) (fieldNN w)) := by
  simp [decodeWord, h]

theorem decodeWord_of_nibble1_5 {w : Word} (h : nibble1 w = 0x5#4) :
    decodeWord w = decodeRegPair w (.seReg (fieldX w) (fieldY w)) := by
  simp [decodeWord, h]

theorem decodeWord_of_nibble1_9 {w : Word} (h : nibble1 w = 0x9#4) :
    decodeWord w = decodeRegPair w (.sneReg (fieldX w) (fieldY w)) := by
  simp [decodeWord, h]

theorem decodeRegPair_eq_some {w : Word} (h : nibble4 w = 0#4) (i : Instr) : decodeRegPair w i = some i := if_pos h

theorem decodeRegPair_eq_none {w : Word} (h : nibble4 w ≠ 0#4) (i : Instr) : decodeRegPair w i = none := if_neg h

theorem decodeWord_encodeI_seImm (x : RegIx) (nn : Byte) :
    decodeWord (encodeI 0x3000#16 x nn) = some (.seImm x nn) := by
  rw [decodeWord_of_nibble1_3 (nibble1_encodeI ..), fieldX_encodeI rfl, fieldNN_encodeI rfl]

theorem decodeWord_encodeI_sneImm (x : RegIx) (nn : Byte) :
    decodeWord (encodeI 0x4000#16 x nn) = some (.sneImm x nn) := by
  rw [decodeWord_of_nibble1_4 (nibble1_encodeI ..), fieldX_encodeI rfl, fieldNN_encodeI rfl]

theorem decodeWord_encodeR_seReg (x y : RegIx) :
    decodeWord (encodeR 0x5000#16 x y) = some (.seReg x y) := by
  rw [decodeWord_of_nibble1_5 (nibble1_encodeR ..), decodeRegPair_eq_some (nibble4_encodeR 0x5000#16 x y),
    fieldX_encodeR rfl, fieldY_encodeR rfl]

theorem decodeWord_encodeR_sneReg (x y : RegIx) :
    decodeWord (encodeR 0x9000#16 x y) = some (.sneReg x y) := by
  rw [decodeWord_of_nibble1_9 (nibble1_encodeR ..), decodeRegPair_eq_some (nibble4_encodeR 0x9000#16 x y),
    fieldX_encodeR rfl, fieldY_encodeR rfl]

/-! ### The register forms with another nibble4 (R75) -/

/-- A count placed in the low nibble leaves nibble1 to the pattern. -/
theorem nibble1_encodeR_or (p : Word) (x y : RegIx) (n : BitVec 4) :
    nibble1 (encodeR p x y ||| n.setWidth 16) = nibble1 p := by
  rw [← nibbleWord]; simp

/-- A count placed in the low nibble is read back as nibble4, where the pattern has 0. -/
theorem nibble4_encodeR_or {p : Word} (hp : nibble4 p = 0#4) (x y : RegIx) (n : BitVec 4) :
    nibble4 (encodeR p x y ||| n.setWidth 16) = n := by
  rw [← nibbleWord]; simp [hp]

theorem decodeWord_seReg_illegal (x y : RegIx) {n : BitVec 4} (hn : n ≠ 0#4) :
    decodeWord (encodeR 0x5000#16 x y ||| n.setWidth 16) = none := by
  rw [decodeWord_of_nibble1_5 (nibble1_encodeR_or ..), decodeRegPair_eq_none]
  rwa [nibble4_encodeR_or rfl]

theorem decodeWord_sneReg_illegal (x y : RegIx) {n : BitVec 4} (hn : n ≠ 0#4) :
    decodeWord (encodeR 0x9000#16 x y ||| n.setWidth 16) = none := by
  rw [decodeWord_of_nibble1_9 (nibble1_encodeR_or ..), decodeRegPair_eq_none]
  rwa [nibble4_encodeR_or rfl]

/-! ### The obligations -/

/-- Settles O19: the fields of the two words read back X and NN, and each skip writes `pc` alone. -/
theorem immediateSkipsAreComplementary : Obligations.ImmediateSkipsAreComplementary := fun x nn s =>
  ⟨decodeWord_encodeI_seImm x nn, decodeWord_encodeI_sneImm x nn, ⟨_, exec_seImm x nn s, rfl, frame_setPc s _⟩,
    _, exec_sneImm x nn s, rfl, frame_setPc s _⟩

/-- Settles O20: as for the immediate skips, and any count but 0 in nibble4 fails the decoder's test. -/
theorem registerSkipsAreComplementary : Obligations.RegisterSkipsAreComplementary := fun x y s =>
  ⟨decodeWord_encodeR_seReg x y, decodeWord_encodeR_sneReg x y,
    fun _ hn => ⟨decodeWord_seReg_illegal x y hn, decodeWord_sneReg_illegal x y hn⟩,
    ⟨_, exec_seReg x y s, rfl, frame_setPc s _⟩, _, exec_sneReg x y s, rfl, frame_setPc s _⟩

end Sys2Proof
end

section
/-! PROOFS. Load, arithmetic and logic (42_load_alu.md R122 to R129, R131): ADD_IMM, the loads and the logic forms write
`V[X]` alone; ADD_REG, SUB and SUBN write a result and then a flag, which stands where both fall on `V[15]` (R121). -/

namespace Sys2Proof.Machine

/-! ### One register written -/

theorem State.setReg_reg_same (s : State) (x : RegIx) (b : Byte) : (s.setReg x b).reg x = b := by
  rw [State.setReg_reg, if_pos rfl]

/-- A write of `V[x]` leaves every other piece of state alone. -/
theorem frame_setReg (s : State) (x : RegIx) (b : Byte) : Frame { regs := [x] } s (s.setReg x b) := by
  constructor
  case regs => intro r hr; rw [State.setReg_reg, if_neg (by simpa using hr)]
  all_goals simp

/-! ### A result and then a flag (R121) -/

theorem State.resultThenFlag_reg_15 (s : State) (x : RegIx) (result flag : Byte) :
    (s.resultThenFlag x result flag).reg 15 = flag :=
  State.setReg_reg_same (s.setReg x result) flagReg flag

theorem State.resultThenFlag_reg_of_ne (s : State) {x : RegIx} (hx : x ≠ 15) (result flag : Byte) :
    (s.resultThenFlag x result flag).reg x = result := by
  rw [State.resultThenFlag, State.setReg_reg, if_neg (show x ≠ flagReg from hx), State.setReg_reg_same]

/-- `V[x]` and `V[15]` are all that the two writes touch. -/
theorem frame_resultThenFlag (s : State) (x : RegIx) (result flag : Byte) :
    Frame { regs := [x, 15] } s (s.resultThenFlag x result flag) := by
  constructor
  case regs =>
    intro r hr
    obtain ⟨hx, hf⟩ : r ≠ x ∧ r ≠ flagReg := by simpa [flagReg] using hr
    rw [State.resultThenFlag, State.setReg_reg, if_neg hf, State.setReg_reg, if_neg hx]
  all_goals simp [State.resultThenFlag]

/-! ### Subtraction (R120) -/

theorem byte_sub_toNat (a b : Byte) : (a - b).toNat = (a.toNat + 256 - b.toNat) % 256 := by
  have hb := b.isLt
  rw [BitVec.toNat_sub]
  omega

/-- What SUB and SUBN share: minuend `a`, subtrahend `b`, result to `V[x]`. -/
theorem resultThenFlag_difference (s : State) (x : RegIx) (a b : Byte) :
    (s.resultThenFlag x (a - b) (notBorrowFlag a b)).reg 15 = (if b.toNat ≤ a.toNat then 1#8 else 0#8) ∧
    (x ≠ 15 → ((s.resultThenFlag x (a - b) (notBorrowFlag a b)).reg x).toNat = (a.toNat + 256 - b.toNat) % 256) ∧
    Frame { regs := [x, 15] } s (s.resultThenFlag x (a - b) (notBorrowFlag a b)) :=
  ⟨by rw [State.resultThenFlag_reg_15, notBorrowFlag_eq],
    fun hx => by rw [State.resultThenFlag_reg_of_ne s hx, byte_sub_toNat], frame_resultThenFlag ..⟩

end Sys2Proof.Machine

namespace Sys2Proof

open Sys2Proof.Machine

/-! ### The words -/

theorem decodeWord_of_nibble1_6 {w : Word} (h : nibble1 w = 0x6#4) :
    decodeWord w = some (.ldImm (fieldX w) (fieldNN w)) := by
  simp [decodeWord, h]

theorem decodeWord_of_nibble1_7 {w : Word} (h : nibble1 w = 0x7#4) :
    decodeWord w = some (.addImm (fieldX w) (fieldNN w)) := by
  simp [decodeWord, h]

theorem decodeWord_of_nibble1_8 {w : Word} (h : nibble1 w = 0x8#4) : decodeWord w = decode8 w := by
  simp [decodeWord, h]

theorem decodeWord_encodeI_ldImm (x : RegIx) (nn : Byte) :
    decodeWord (encodeI 0x6000#16 x nn) = some (.ldImm x nn) := by
  rw [decodeWord_of_nibble1_6 (nibble1_encodeI ..), fieldX_encodeI rfl, fieldNN_encodeI rfl]

theorem decodeWord_encodeI_addImm (x : RegIx) (nn : Byte) :
    decodeWord (encodeI 0x7000#16 x nn) = some (.addImm x nn) := by
  rw [decodeWord_of_nibble1_7 (nibble1_encodeI ..), fieldX_encodeI rfl, fieldNN_encodeI rfl]

/-- The forms 8XYn: the decoder finds the form by nibble4 of the pattern and reads X and Y back from the word. -/
theorem decodeWord_encodeR_8 {p : Word} {form : RegIx → RegIx → Instr}
    (hp : nibble1 p = 0x8#4 ∧ nibble2 p = 0#4 ∧ nibble3 p = 0#4)
    (hform : ∀ w, nibble4 w = nibble4 p → decode8 w = some (form (fieldX w) (fieldY w))) (x y : RegIx) :
    decodeWord (encodeR p x y) = some (form x y) := by
  obtain ⟨h1, h2, h3⟩ := hp
  rw [decodeWord_of_nibble1_8 ((nibble1_encodeR ..).trans h1), hform _ (nibble4_encodeR ..), fieldX_encodeR h2,
    fieldY_encodeR h3]

theorem decodeWord_encodeR_ldReg (x y : RegIx) : decodeWord (encodeR 0x8000#16 x y) = some (.ldReg x y) :=
  decodeWord_encodeR_8 (by decide) (fun w h => by simp [decode8, h]) x y

theorem decodeWord_encodeR_or (x y : RegIx) : decodeWord (encodeR 0x8001#16 x y) = some (.or x y) :=
  decodeWord_encodeR_8 (by decide) (fun w h => by simp [decode8, h]) x y

theorem decodeWord_encodeR_and (x y : RegIx) : decodeWord (encodeR 0x8002#16 x y) = some (.and x y) :=
  decodeWord_encodeR_8 (by decide) (fun w h => by simp [decode8, h]) x y

theorem decodeWord_encodeR_xor (x y : RegIx) : decodeWord (encodeR 0x8003#16 x y) = some (.xor x y) :=
  decodeWord_encodeR_8 (by decide) (fun w h => by simp [decode8, h]) x y

theorem decodeWord_encodeR_addReg (x y : RegIx) : decodeWord (encodeR 0x8004#16 x y) = some (.addReg x y) :=
  decodeWord_encodeR_8 (by decide) (fun w h => by simp [decode8, h]) x y

theorem decodeWord_encodeR_sub (x y : RegIx) : decodeWord (encodeR 0x8005#16 x y) = some (.sub x y) :=
  decodeWord_encodeR_8 (by decide) (fun w h => by simp [decode8, h]) x y

theorem decodeWord_encodeR_subn (x y : RegIx) : decodeWord (encodeR 0x8007#16 x y) = some (.subn x y) :=
  decodeWord_encodeR_8 (by decide) (fun w h => by simp [decode8, h]) x y

/-! ### What the instructions do -/

theorem exec_ldImm (x : RegIx) (nn : Byte) (s : State) : exec (.ldImm x nn) s = .next (s.setReg x nn) := rfl

theorem exec_addImm (x : RegIx) (nn : Byte) (s : State) :
    exec (.addImm x nn) s = .next (s.setReg x (s.reg x + nn)) := rfl

theorem exec_ldReg (x y : RegIx) (s : State) : exec (.ldReg x y) s = .next (s.setReg x (s.reg y)) := rfl

theorem exec_or (x y : RegIx) (s : State) : exec (.or x y) s = .next (s.setReg x (s.reg x ||| s.reg y)) := rfl

theorem exec_and (x y : RegIx) (s : State) : exec (.and x y) s = .next (s.setReg x (s.reg x &&& s.reg y)) := rfl

theorem exec_xor (x y : RegIx) (s : State) : exec (.xor x y) s = .next (s.setReg x (s.reg x ^^^ s.reg y)) := rfl

theorem exec_addReg (x y : RegIx) (s : State) : exec (.addReg x y) s =
    .next (s.resultThenFlag x (sumResult (s.reg x) (s.reg y)) (carryFlag (s.reg x) (s.reg y))) := rfl

theorem exec_sub (x y : RegIx) (s : State) : exec (.sub x y) s =
    .next (s.resultThenFlag x (s.reg x - s.reg y) (notBorrowFlag (s.reg x) (s.reg y))) := rfl

theorem exec_subn (x y : RegIx) (s : State) : exec (.subn x y) s =
    .next (s.resultThenFlag x (s.reg y - s.reg x) (notBorrowFlag (s.reg y) (s.reg x))) := rfl

/-! ### The obligations -/

/-- Settles O27: the flag is written last, so the carry stands at every X, and the sum wherever X is not 15. -/
theorem addRegWritesSumAndCarry : Obligations.AddRegWritesSumAndCarry := fun x y s =>
  ⟨decodeWord_encodeR_addReg x y, _, exec_addReg x y s,
    by rw [State.resultThenFlag_reg_15, carryFlag_eq],
    fun hx => by rw [State.resultThenFlag_reg_of_ne s hx, sumResult_toNat], frame_resultThenFlag ..⟩

/-- Settles O28: SUB and SUBN are one subtraction with minuend and subtrahend exchanged. -/
theorem subtractionsWriteDifferenceAndNoBorrow : Obligations.SubtractionsWriteDifferenceAndNoBorrow := fun x y s =>
  ⟨decodeWord_encodeR_sub x y, decodeWord_encodeR_subn x y,
    ⟨_, exec_sub x y s, resultThenFlag_difference s x (s.reg x) (s.reg y)⟩,
    _, exec_subn x y s, resultThenFlag_difference s x (s.reg y) (s.reg x)⟩

/-- Settles O23: one write, of the immediate the word holds. -/
theorem ldImmLoadsTheImmediate : Obligations.LdImmLoadsTheImmediate := fun x nn s =>
  ⟨decodeWord_encodeI_ldImm x nn, _, exec_ldImm x nn s, State.setReg_reg_same .., frame_setReg ..⟩

/-- Settles O24: a byte addition is the sum modulo 256, and the one write is that of `V[X]`. -/
theorem addImmWrapsWithoutFlag : Obligations.AddImmWrapsWithoutFlag := fun x nn s =>
  ⟨decodeWord_encodeI_addImm x nn, _, exec_addImm x nn s,
    by rw [State.setReg_reg_same, BitVec.toNat_add], frame_setReg ..⟩

/-- Settles O25: one write, of `V[Y]`. -/
theorem ldRegCopies : Obligations.LdRegCopies := fun x y s =>
  ⟨decodeWord_encodeR_ldReg x y, _, exec_ldReg x y s, State.setReg_reg_same .., frame_setReg ..⟩

/-- Settles O26: each form is the operation of bit vectors of its name, which acts bit by bit, and one write. -/
theorem logicIsBitwiseWithoutFlag : Obligations.LogicIsBitwiseWithoutFlag := fun x y s =>
  ⟨decodeWord_encodeR_or x y, decodeWord_encodeR_and x y, decodeWord_encodeR_xor x y,
    ⟨_, exec_or x y s, frame_setReg .., fun _ => by rw [State.setReg_reg_same, BitVec.getLsbD_or]⟩,
    ⟨_, exec_and x y s, frame_setReg .., fun _ => by rw [State.setReg_reg_same, BitVec.getLsbD_and]⟩,
    _, exec_xor x y s, frame_setReg .., fun _ => by rw [State.setReg_reg_same, BitVec.getLsbD_xor]⟩

end Sys2Proof
end

section
/-! PROOFS. CLS (44_display.md R150): one write, of the display as a whole. -/

namespace Sys2Proof.Machine

/-- A write of the display leaves every other piece of state alone. -/
theorem frame_setDisplay (s : State) (d : Display) : Frame { display := true } s (s.setDisplay d) := by
  constructor <;> simp

theorem setDisplay_clear_pixel (s : State) (x : Fin 64) (y : Fin 32) :
    (s.setDisplay Display.clear).pixel x y = false := by
  rw [State.setDisplay_pixel, Display.get_clear]

end Sys2Proof.Machine

namespace Sys2Proof

open Sys2Proof.Machine

theorem decodeWord_cls : decodeWord 0x00E0#16 = some .cls := by decide

theorem exec_cls (s : State) : exec .cls s = .next (s.setDisplay Display.clear) := rfl

/-- Settles O37: the display written is the clear one, and the write of the display is the only one. -/
theorem clsClearsEveryCell : Obligations.ClsClearsEveryCell :=
  ⟨decodeWord_cls, fun s => ⟨_, exec_cls s, setDisplay_clear_pixel s, frame_setDisplay s Display.clear⟩⟩

end Sys2Proof
end

section
/-! PROOFS. The timer transfers (45_timers_keys.md R160, R163, R164): each copies one byte between a register and a
timer, and the sound output is read off the sound timer. -/

namespace Sys2Proof.Machine

/-! ### One timer written -/

/-- A write of the delay timer leaves every other piece of state alone. -/
theorem frame_setDt (s : State) (b : Byte) : Frame { dt := true } s (s.setDt b) := by
  constructor <;> simp

/-- A write of the sound timer leaves every other piece of state alone. -/
theorem frame_setSt (s : State) (b : Byte) : Frame { st := true } s (s.setSt b) := by
  constructor <;> simp

/-! ### The sound output (R164) -/

theorem soundActive_iff (s : State) : soundActive s = true ↔ s.st ≠ 0#8 := by
  rw [soundActive, decide_eq_true_iff, BitVec.pos_iff_ne_zero]

theorem soundActive_setSt (s : State) (b : Byte) : soundActive (s.setSt b) = true ↔ b ≠ 0#8 := by
  rw [soundActive_iff, State.setSt_st]

end Sys2Proof.Machine

namespace Sys2Proof

open Sys2Proof.Machine

/-! ### The words -/

theorem decodeWord_of_nibble1_F {w : Word} (h : nibble1 w = 0xF#4) : decodeWord w = decodeF w := by
  simp [decodeWord, h]

/-- The forms FXnn: the decoder finds the form by the low byte of the pattern and reads X back from the word. -/
theorem decodeWord_encodeU_F {p : Word} {nn : Byte} {form : RegIx → Instr}
    (hp : nibble1 p = 0xF#4 ∧ nibble2 p = 0#4 ∧ fieldNN p = nn)
    (hform : ∀ w, fieldNN w = nn → decodeF w = some (form (fieldX w))) (x : RegIx) :
    decodeWord (encodeU p x) = some (form x) := by
  obtain ⟨h1, h2, hnn⟩ := hp
  rw [decodeWord_of_nibble1_F ((nibble1_encodeU ..).trans h1), hform _ ((fieldNN_encodeU ..).trans hnn),
    fieldX_encodeU h2]

theorem decodeWord_encodeU_ldVxDt (x : RegIx) : decodeWord (encodeU 0xF007#16 x) = some (.ldVxDt x) :=
  decodeWord_encodeU_F (nn := 0x07#8) (by decide) (fun w h => by simp [decodeF, h]) x

theorem decodeWord_encodeU_ldDtVx (x : RegIx) : decodeWord (encodeU 0xF015#16 x) = some (.ldDtVx x) :=
  decodeWord_encodeU_F (nn := 0x15#8) (by decide) (fun w h => by simp [decodeF, h]) x

theorem decodeWord_encodeU_ldStVx (x : RegIx) : decodeWord (encodeU 0xF018#16 x) = some (.ldStVx x) :=
  decodeWord_encodeU_F (nn := 0x18#8) (by decide) (fun w h => by simp [decodeF, h]) x

/-! ### What the instructions do -/

theorem exec_ldVxDt (x : RegIx) (s : State) : exec (.ldVxDt x) s = .next (s.setReg x s.dt) := rfl

theorem exec_ldDtVx (x : RegIx) (s : State) : exec (.ldDtVx x) s = .next (s.setDt (s.reg x)) := rfl

theorem exec_ldStVx (x : RegIx) (s : State) : exec (.ldStVx x) s = .next (s.setSt (s.reg x)) := rfl

/-! ### The obligation -/

/-- Settles O40: each form is one write, and the byte written to ST alone decides whether the sound output is active. -/
theorem timerInstructionsCopyTheByte : Obligations.TimerInstructionsCopyTheByte := fun x s =>
  ⟨decodeWord_encodeU_ldVxDt x, decodeWord_encodeU_ldDtVx x, decodeWord_encodeU_ldStVx x,
    ⟨_, exec_ldVxDt x s, State.setReg_reg_same .., frame_setReg ..⟩,
    ⟨_, exec_ldDtVx x s, State.setDt_dt .., frame_setDt ..⟩,
    _, exec_ldStVx x s, State.setSt_st .., soundActive_setSt .., frame_setSt ..⟩

end Sys2Proof
end

section
/-! PROOFS. The sound output at the host's interface (50_host_interface.md R176): it is read off ST alone, so each clause
asks what an operation leaves in ST. -/

namespace Sys2Proof.Machine

/-! ### The sound output read off ST -/

theorem soundActive_iff_toNat_pos (s : State) : soundActive s = true ↔ 0 < s.st.toNat := by
  rw [soundActive, decide_eq_true_iff, BitVec.lt_def, BitVec.toNat_zero]

theorem soundActive_eq_false_iff (s : State) : soundActive s = false ↔ s.st = 0#8 := by
  rw [← Bool.not_eq_true, soundActive_iff, not_not]

/-! ### What the tick and `reset` leave in ST -/

@[simp] theorem tickTimers_st (s : State) : (tickTimers s).st = tickDown s.st := rfl

@[simp] theorem hostReset_st (s : State) : (hostReset s).st = 0#8 := rfl

/-- The sound output is silent after a tick that takes ST from 1 to 0. -/
theorem soundActive_tickTimers_of_st_eq_one {s : State} (h : s.st = 1#8) : soundActive (tickTimers s) = false := by
  rw [soundActive_eq_false_iff, tickTimers_st, h]
  decide

theorem soundActive_hostReset (s : State) : soundActive (hostReset s) = false :=
  (soundActive_eq_false_iff _).mpr (hostReset_st s)

end Sys2Proof.Machine

namespace Sys2Proof

open Sys2Proof.Machine

/-! ### The obligation -/

/-- Settles O57: the level is that of ST, and the tick from 1, `reset` and LD_ST_VX each say which byte they leave there. -/
theorem soundIsActiveWhileStIsPositive : Obligations.SoundIsActiveWhileStIsPositive := fun s =>
  ⟨soundActive_iff_toNat_pos s,
    fun h => ⟨(soundActive_iff s).mpr (h ▸ by decide), soundActive_tickTimers_of_st_eq_one h⟩,
    soundActive_hostReset s,
    fun x => ⟨_, exec_ldStVx x s, soundActive_setSt s (s.reg x)⟩⟩

end Sys2Proof
end

section
/-! PROOFS. The encoder against the decoder (30_encoding.md R70, R74, R75, R82): each format's word is read back field
by field, and put together again from its fields; the illegal words are counted off opcode by opcode. -/

namespace Sys2Proof

/-! ### The decoder by nibble1 (R74), beside the opcodes of the earlier sections -/

theorem decodeWord_of_nibble1_0 {w : Word} (h : nibble1 w = 0x0#4) : decodeWord w = decode0 w :=
  decodeWord_of_lt_0x1000 ((nibble1_eq_zero_iff w).1 h)

theorem decodeWord_of_nibble1_1 {w : Word} (h : nibble1 w = 0x1#4) : decodeWord w = some (.jp (fieldNNN w)) := by
  simp [decodeWord, h]

theorem decodeWord_of_nibble1_2 {w : Word} (h : nibble1 w = 0x2#4) : decodeWord w = some (.call (fieldNNN w)) := by
  simp [decodeWord, h]

theorem decodeWord_of_nibble1_A {w : Word} (h : nibble1 w = 0xA#4) : decodeWord w = some (.ldI (fieldNNN w)) := by
  simp [decodeWord, h]

theorem decodeWord_of_nibble1_B {w : Word} (h : nibble1 w = 0xB#4) : decodeWord w = some (.jpV0 (fieldNNN w)) := by
  simp [decodeWord, h]

theorem decodeWord_of_nibble1_C {w : Word} (h : nibble1 w = 0xC#4) :
    decodeWord w = some (.rnd (fieldX w) (fieldNN w)) := by
  simp [decodeWord, h]

theorem decodeWord_of_nibble1_D {w : Word} (h : nibble1 w = 0xD#4) :
    decodeWord w = some (.drw (fieldX w) (fieldY w) (fieldN w)) := by
  simp [decodeWord, h]

theorem decodeWord_of_nibble1_E {w : Word} (h : nibble1 w = 0xE#4) : decodeWord w = decodeE w := by
  simp [decodeWord, h]

/-! ### The words of the remaining forms -/

theorem decodeWord_encodeA_jp (nnn : Addr12) : decodeWord (encodeA 0x1000#16 nnn) = some (.jp nnn) := by
  rw [decodeWord_of_nibble1_1 (nibble1_encodeA ..), fieldNNN_encodeA rfl]

theorem decodeWord_encodeA_call (nnn : Addr12) : decodeWord (encodeA 0x2000#16 nnn) = some (.call nnn) := by
  rw [decodeWord_of_nibble1_2 (nibble1_encodeA ..), fieldNNN_encodeA rfl]

theorem decodeWord_encodeA_ldI (nnn : Addr12) : decodeWord (encodeA 0xA000#16 nnn) = some (.ldI nnn) := by
  rw [decodeWord_of_nibble1_A (nibble1_encodeA ..), fieldNNN_encodeA rfl]

theorem decodeWord_encodeA_jpV0 (nnn : Addr12) : decodeWord (encodeA 0xB000#16 nnn) = some (.jpV0 nnn) := by
  rw [decodeWord_of_nibble1_B (nibble1_encodeA ..), fieldNNN_encodeA rfl]

theorem decodeWord_encodeI_rnd (x : RegIx) (nn : Byte) : decodeWord (encodeI 0xC000#16 x nn) = some (.rnd x nn) := by
  rw [decodeWord_of_nibble1_C (nibble1_encodeI ..), fieldX_encodeI rfl, fieldNN_encodeI rfl]

theorem decodeWord_encodeD_drw (x y : RegIx) {n : Nat} (hn : n < 16) :
    decodeWord (encodeD 0xD000#16 x y n) = some (.drw x y n) := by
  rw [decodeWord_of_nibble1_D (nibble1_encodeD ..), fieldX_encodeD rfl, fieldY_encodeD rfl, fieldN_encodeD rfl _ _ hn]

theorem decodeWord_encodeR_shr (x y : RegIx) : decodeWord (encodeR 0x8006#16 x y) = some (.shr x y) :=
  decodeWord_encodeR_8 (by decide) (fun w h => by simp [decode8, h]) x y

theorem decodeWord_encodeR_shl (x y : RegIx) : decodeWord (encodeR 0x800E#16 x y) = some (.shl x y) :=
  decodeWord_encodeR_8 (by decide) (fun w h => by simp [decode8, h]) x y

theorem decodeWord_encodeU_skp (x : RegIx) : decodeWord (encodeU 0xE09E#16 x) = some (.skp x) := by
  rw [decodeWord_of_nibble1_E (nibble1_encodeU ..), decodeE, fieldNN_encodeU, if_pos (by decide),
    fieldX_encodeU rfl]

theorem decodeWord_encodeU_sknp (x : RegIx) : decodeWord (encodeU 0xE0A1#16 x) = some (.sknp x) := by
  rw [decodeWord_of_nibble1_E (nibble1_encodeU ..), decodeE, fieldNN_encodeU, if_neg (by decide),
    if_pos (by decide), fieldX_encodeU rfl]

theorem decodeWord_encodeU_ldVxK (x : RegIx) : decodeWord (encodeU 0xF00A#16 x) = some (.ldVxK x) :=
  decodeWord_encodeU_F (nn := 0x0A#8) (by decide) (fun w h => by simp [decodeF, h]) x

theorem decodeWord_encodeU_addI (x : RegIx) : decodeWord (encodeU 0xF01E#16 x) = some (.addI x) :=
  decodeWord_encodeU_F (nn := 0x1E#8) (by decide) (fun w h => by simp [decodeF, h]) x

theorem decodeWord_encodeU_ldF (x : RegIx) : decodeWord (encodeU 0xF029#16 x) = some (.ldF x) :=
  decodeWord_encodeU_F (nn := 0x29#8) (by decide) (fun w h => by simp [decodeF, h]) x

theorem decodeWord_encodeU_ldB (x : RegIx) : decodeWord (encodeU 0xF033#16 x) = some (.ldB x) :=
  decodeWord_encodeU_F (nn := 0x33#8) (by decide) (fun w h => by simp [decodeF, h]) x

theorem decodeWord_encodeU_ldMemVx (x : RegIx) : decodeWord (encodeU 0xF055#16 x) = some (.ldMemVx x) :=
  decodeWord_encodeU_F (nn := 0x55#8) (by decide) (fun w h => by simp [decodeF, h]) x

theorem decodeWord_encodeU_ldVxMem (x : RegIx) : decodeWord (encodeU 0xF065#16 x) = some (.ldVxMem x) :=
  decodeWord_encodeU_F (nn := 0x65#8) (by decide) (fun w h => by simp [decodeF, h]) x

/-! ### Decoding an encoding (R82) -/

/-- Every form's word is read back; DRW is the one form whose operand must be checked first (R72). -/
theorem decodeWord_encodeWord {i : Instr} (h : i.WellFormed) : decodeWord (encodeWord i) = some i := by
  cases i with
  | nop => decide
  | cls => decide
  | ret => decide
  | jp nnn => exact decodeWord_encodeA_jp nnn
  | call nnn => exact decodeWord_encodeA_call nnn
  | seImm x nn => exact decodeWord_encodeI_seImm x nn
  | sneImm x nn => exact decodeWord_encodeI_sneImm x nn
  | seReg x y => exact decodeWord_encodeR_seReg x y
  | ldImm x nn => exact decodeWord_encodeI_ldImm x nn
  | addImm x nn => exact decodeWord_encodeI_addImm x nn
  | ldReg x y => exact decodeWord_encodeR_ldReg x y
  | or x y => exact decodeWord_encodeR_or x y
  | and x y => exact decodeWord_encodeR_and x y
  | xor x y => exact decodeWord_encodeR_xor x y
  | addReg x y => exact decodeWord_encodeR_addReg x y
  | sub x y => exact decodeWord_encodeR_sub x y
  | shr x y => exact decodeWord_encodeR_shr x y
  | subn x y => exact decodeWord_encodeR_subn x y
  | shl x y => exact decodeWord_encodeR_shl x y
  | sneReg x y => exact decodeWord_encodeR_sneReg x y
  | ldI nnn => exact decodeWord_encodeA_ldI nnn
  | jpV0 nnn => exact decodeWord_encodeA_jpV0 nnn
  | rnd x nn => exact decodeWord_encodeI_rnd x nn
  | drw x y n => exact decodeWord_encodeD_drw x y (of_decide_eq_true h)
  | skp x => exact decodeWord_encodeU_skp x
  | sknp x => exact decodeWord_encodeU_sknp x
  | ldVxDt x => exact decodeWord_encodeU_ldVxDt x
  | ldVxK x => exact decodeWord_encodeU_ldVxK x
  | ldDtVx x => exact decodeWord_encodeU_ldDtVx x
  | ldStVx x => exact decodeWord_encodeU_ldStVx x
  | addI x => exact decodeWord_encodeU_addI x
  | ldF x => exact decodeWord_encodeU_ldF x
  | ldB x => exact decodeWord_encodeU_ldB x
  | ldMemVx x => exact decodeWord_encodeU_ldMemVx x
  | ldVxMem x => exact decodeWord_encodeU_ldVxMem x

/-- The decoder on bytes reads the word of the first two and leaves the rest. -/
theorem decode_bytesOfWord_append {w : Word} {i : Instr} (h : decodeWord w = some i) (rest : List Byte) :
    decode (bytesOfWord w ++ rest) = .ok (i, rest) := by
  simp [bytesOfWord, decode, h]

/-- Settles O1: the bytes of a word are its two halves, and every form's word is read back field by field. -/
theorem decodeOfEncodeIsTheInstruction : Obligations.DecodeOfEncodeIsTheInstruction := fun _ rest h =>
  decode_bytesOfWord_append (decodeWord_encodeWord h) rest

/-! ### A word put together from its fields (R70, R82) -/

@[simp] theorem regField_fieldX (w : Word) : regField (fieldX w) = nibble2 w := rfl

@[simp] theorem regField_fieldY (w : Word) : regField (fieldY w) = nibble3 w := rfl

@[simp] theorem ofNat_fieldN (w : Word) : BitVec.ofNat 4 (fieldN w) = nibble4 w := by
  rw [fieldN, BitVec.ofNat_toNat, BitVec.setWidth_eq]

theorem fieldN_lt (w : Word) : fieldN w < 16 := (nibble4 w).isLt

/-- NNN is nibbles 2 to 4. -/
theorem setWidth_fieldNNN_nibbles (w : Word) :
    nibble2 ((fieldNNN w).setWidth 16) = nibble2 w ∧ nibble3 ((fieldNNN w).setWidth 16) = nibble3 w ∧
    nibble4 ((fieldNNN w).setWidth 16) = nibble4 w := by
  simp only [fieldNNN, nibble2, nibble3, nibble4, ← BitVec.toNat_inj, BitVec.extractLsb'_toNat, BitVec.toNat_setWidth,
    Nat.shiftRight_eq_div_pow]
  omega

/-- NN is nibbles 3 and 4. -/
theorem setWidth_fieldNN_nibbles (w : Word) :
    nibble3 ((fieldNN w).setWidth 16) = nibble3 w ∧ nibble4 ((fieldNN w).setWidth 16) = nibble4 w := by
  simp only [fieldNN, nibble3, nibble4, ← BitVec.toNat_inj, BitVec.extractLsb'_toNat, BitVec.toNat_setWidth,
    Nat.shiftRight_eq_div_pow]
  omega

theorem encodeA_fieldNNN {w p : Word} (h : nibble1 w = nibble1 p)
    (hp : nibble2 p = 0#4 ∧ nibble3 p = 0#4 ∧ nibble4 p = 0#4) : encodeA p (fieldNNN w) = w := by
  rw [eq_iff_nibbles]
  simp [encodeA, h, hp, setWidth_fieldNNN_nibbles]

theorem encodeI_fieldX_fieldNN {w p : Word} (h : nibble1 w = nibble1 p)
    (hp : nibble2 p = 0#4 ∧ nibble3 p = 0#4 ∧ nibble4 p = 0#4) : encodeI p (fieldX w) (fieldNN w) = w := by
  rw [eq_iff_nibbles]
  simp [encodeI, h, hp, setWidth_fieldNN_nibbles]

theorem encodeR_fieldX_fieldY {w p : Word} (h : nibble1 w = nibble1 p) (h4 : nibble4 w = nibble4 p)
    (hp : nibble2 p = 0#4 ∧ nibble3 p = 0#4) : encodeR p (fieldX w) (fieldY w) = w := by
  rw [eq_iff_nibbles]
  simp [encodeR, h, h4, hp]

theorem encodeD_fieldX_fieldY_fieldN {w p : Word} (h : nibble1 w = nibble1 p)
    (hp : nibble2 p = 0#4 ∧ nibble3 p = 0#4 ∧ nibble4 p = 0#4) :
    encodeD p (fieldX w) (fieldY w) (fieldN w) = w := by
  rw [eq_iff_nibbles]
  simp [encodeD, h, hp]

theorem encodeU_fieldX {w p : Word} (h : nibble1 w = nibble1 p) (hNN : fieldNN w = fieldNN p)
    (hp : nibble2 p = 0#4) : encodeU p (fieldX w) = w := by
  obtain ⟨h3, h4⟩ := (fieldNN_eq_iff_nibbles w _).1 hNN
  obtain ⟨hp3, hp4⟩ := (fieldNN_eq_iff_nibbles p _).1 rfl
  rw [eq_iff_nibbles]
  simp [encodeU, h, hp, h3, h4, hp3, hp4]

/-! ### Encoding what a word decodes to -/

/-- Whatever instruction `o` holds is well-formed and has the word `w`. -/
def HoldsOnlyEncodingOf (w : Word) (o : Option Instr) : Prop := ∀ i, o = some i → i.WellFormed ∧ encodeWord i = w

theorem HoldsOnlyEncodingOf.none (w : Word) : HoldsOnlyEncodingOf w none := fun _ h => by cases h

theorem HoldsOnlyEncodingOf.some {w : Word} {i : Instr} (hi : i.WellFormed) (hw : encodeWord i = w) :
    HoldsOnlyEncodingOf w (some i) := by
  rintro _ ⟨⟩
  exact ⟨hi, hw⟩

/-- One test of the decoder: the form it finds has the word, given that the test holds, and so do the later ones. -/
theorem HoldsOnlyEncodingOf.test {w : Word} {c : Prop} [Decidable c] {i : Instr} {o : Option Instr}
    (hi : i.WellFormed) (hw : c → encodeWord i = w) (ho : HoldsOnlyEncodingOf w o) :
    HoldsOnlyEncodingOf w (if c then Option.some i else o) := by
  split
  · exact .some hi (hw ‹c›)
  · exact ho

theorem decode0_encodings (w : Word) : HoldsOnlyEncodingOf w (decode0 w) :=
  .test rfl Eq.symm <| .test rfl Eq.symm <| .test rfl Eq.symm <| .none w

theorem decodeRegPair_encodings {w : Word} {i : Instr} (hi : i.WellFormed) (hw : nibble4 w = 0#4 → encodeWord i = w) :
    HoldsOnlyEncodingOf w (decodeRegPair w i) :=
  .test hi hw (.none w)

theorem decode8_encodings {w : Word} (h : nibble1 w = 0x8#4) : HoldsOnlyEncodingOf w (decode8 w) := by
  have word {p : Word} (hp : nibble1 p = 0x8#4 ∧ nibble2 p = 0#4 ∧ nibble3 p = 0#4) (h4 : nibble4 w = nibble4 p) :
      encodeR p (fieldX w) (fieldY w) = w := encodeR_fieldX_fieldY (h.trans hp.1.symm) h4 hp.2
  exact .test rfl (word (p := 0x8000#16) (by decide)) <| .test rfl (word (p := 0x8001#16) (by decide)) <|
    .test rfl (word (p := 0x8002#16) (by decide)) <| .test rfl (word (p := 0x8003#16) (by decide)) <|
    .test rfl (word (p := 0x8004#16) (by decide)) <| .test rfl (word (p := 0x8005#16) (by decide)) <|
    .test rfl (word (p := 0x8006#16) (by decide)) <| .test rfl (word (p := 0x8007#16) (by decide)) <|
    .test rfl (word (p := 0x800E#16) (by decide)) <| .none w

theorem decodeE_encodings {w : Word} (h : nibble1 w = 0xE#4) : HoldsOnlyEncodingOf w (decodeE w) :=
  .test rfl (fun hNN => encodeU_fieldX (p := 0xE09E#16) h hNN rfl) <|
    .test rfl (fun hNN => encodeU_fieldX (p := 0xE0A1#16) h hNN rfl) <| .none w

theorem decodeF_encodings {w : Word} (h : nibble1 w = 0xF#4) : HoldsOnlyEncodingOf w (decodeF w) := by
  have word {p : Word} (hp : nibble1 p = 0xF#4 ∧ nibble2 p = 0#4) (hNN : fieldNN w = fieldNN p) :
      encodeU p (fieldX w) = w := encodeU_fieldX (h.trans hp.1.symm) hNN hp.2
  exact .test rfl (word (p := 0xF007#16) (by decide)) <| .test rfl (word (p := 0xF00A#16) (by decide)) <|
    .test rfl (word (p := 0xF015#16) (by decide)) <| .test rfl (word (p := 0xF018#16) (by decide)) <|
    .test rfl (word (p := 0xF01E#16) (by decide)) <| .test rfl (word (p := 0xF029#16) (by decide)) <|
    .test rfl (word (p := 0xF033#16) (by decide)) <| .test rfl (word (p := 0xF055#16) (by decide)) <|
    .test rfl (word (p := 0xF065#16) (by decide)) <| .none w

/-- A nibble is one of the sixteen opcodes. -/
theorem nibble_cases (v : BitVec 4) : v = 0x0#4 ∨ v = 0x1#4 ∨ v = 0x2#4 ∨ v = 0x3#4 ∨ v = 0x4#4 ∨ v = 0x5#4 ∨
    v = 0x6#4 ∨ v = 0x7#4 ∨ v = 0x8#4 ∨ v = 0x9#4 ∨ v = 0xA#4 ∨ v = 0xB#4 ∨ v = 0xC#4 ∨ v = 0xD#4 ∨ v = 0xE#4 ∨
    v = 0xF#4 := by
  revert v
  decide

theorem decodeWord_encodings (w : Word) : HoldsOnlyEncodingOf w (decodeWord w) := by
  rcases nibble_cases (nibble1 w) with h | h | h | h | h | h | h | h | h | h | h | h | h | h | h | h
  · exact decodeWord_of_nibble1_0 h ▸ decode0_encodings w
  · exact decodeWord_of_nibble1_1 h ▸ .some rfl (encodeA_fieldNNN h (by decide))
  · exact decodeWord_of_nibble1_2 h ▸ .some rfl (encodeA_fieldNNN h (by decide))
  · exact decodeWord_of_nibble1_3 h ▸ .some rfl (encodeI_fieldX_fieldNN h (by decide))
  · exact decodeWord_of_nibble1_4 h ▸ .some rfl (encodeI_fieldX_fieldNN h (by decide))
  · exact decodeWord_of_nibble1_5 h ▸ decodeRegPair_encodings rfl fun h4 => encodeR_fieldX_fieldY h h4 (by decide)
  · exact decodeWord_of_nibble1_6 h ▸ .some rfl (encodeI_fieldX_fieldNN h (by decide))
  · exact decodeWord_of_nibble1_7 h ▸ .some rfl (encodeI_fieldX_fieldNN h (by decide))
  · exact decodeWord_of_nibble1_8 h ▸ decode8_encodings h
  · exact decodeWord_of_nibble1_9 h ▸ decodeRegPair_encodings rfl fun h4 => encodeR_fieldX_fieldY h h4 (by decide)
  · exact decodeWord_of_nibble1_A h ▸ .some rfl (encodeA_fieldNNN h (by decide))
  · exact decodeWord_of_nibble1_B h ▸ .some rfl (encodeA_fieldNNN h (by decide))
  · exact decodeWord_of_nibble1_C h ▸ .some rfl (encodeI_fieldX_fieldNN h (by decide))
  · exact decodeWord_of_nibble1_D h ▸ .some (decide_eq_true (fieldN_lt w)) (encodeD_fieldX_fieldY_fieldN h (by decide))
  · exact decodeWord_of_nibble1_E h ▸ decodeE_encodings h
  · exact decodeWord_of_nibble1_F h ▸ decodeF_encodings h

/-- Settles O2: at each of the sixteen opcodes the form found carries the word's own fields. -/
theorem encodeOfDecodeIsTheWord : Obligations.EncodeOfDecodeIsTheWord := decodeWord_encodings

/-! ### The illegal space in arithmetic (R75) -/

theorem nibble1_eq_iff (w : Word) (v : BitVec 4) : nibble1 w = v ↔ w.toNat / 0x1000 = v.toNat := by
  have := w.isLt
  simp only [nibble1, ← BitVec.toNat_inj, BitVec.extractLsb'_toNat, Nat.shiftRight_eq_div_pow]
  omega

theorem nibble4_eq_iff (w : Word) (v : BitVec 4) : nibble4 w = v ↔ w.toNat % 16 = v.toNat := by
  simp [nibble4, ← BitVec.toNat_inj, BitVec.extractLsb'_toNat]

theorem fieldNN_eq_iff (w : Word) (nn : Byte) : fieldNN w = nn ↔ w.toNat % 256 = nn.toNat := by
  simp [fieldNN, ← BitVec.toNat_inj, BitVec.extractLsb'_toNat]

/-- One test of the decoder fails, and so do the later ones. -/
theorem ite_some_eq_none_iff {c : Prop} [Decidable c] {i : Instr} {o : Option Instr} :
    (if c then some i else o) = none ↔ ¬ c ∧ o = none := by
  split <;> simp [*]

theorem decode0_eq_none_iff (w : Word) :
    decode0 w = none ↔ w.toNat ≠ 0 ∧ w.toNat ≠ 0xE0 ∧ w.toNat ≠ 0xEE := by
  simp only [decode0, ite_some_eq_none_iff, ← BitVec.toNat_inj, BitVec.toNat_ofNat, and_true]

theorem decodeRegPair_eq_none_iff (w : Word) (i : Instr) : decodeRegPair w i = none ↔ w.toNat % 16 ≠ 0 := by
  simp [decodeRegPair, nibble4_eq_iff]

theorem decode8_eq_none_iff (w : Word) :
    decode8 w = none ↔ w.toNat % 16 ∈ [8, 9, 0xA, 0xB, 0xC, 0xD, 0xF] := by
  simp only [decode8, ite_some_eq_none_iff, nibble4_eq_iff, BitVec.toNat_ofNat, and_true, List.mem_cons,
    List.not_mem_nil, or_false]
  omega

theorem decodeE_eq_none_iff (w : Word) : decodeE w = none ↔ w.toNat % 256 ∉ [0x9E, 0xA1] := by
  simp [decodeE, ite_some_eq_none_iff, fieldNN_eq_iff]

theorem decodeF_eq_none_iff (w : Word) :
    decodeF w = none ↔ w.toNat % 256 ∉ [0x07, 0x0A, 0x15, 0x18, 0x1E, 0x29, 0x33, 0x55, 0x65] := by
  simp [decodeF, ite_some_eq_none_iff, fieldNN_eq_iff]

/-- The opcodes whose every word is legal. -/
theorem decodeWord_ne_none {w : Word}
    (h : nibble1 w ∈ [0x1#4, 0x2#4, 0x3#4, 0x4#4, 0x6#4, 0x7#4, 0xA#4, 0xB#4, 0xC#4, 0xD#4]) : decodeWord w ≠ none := by
  simp only [List.mem_cons, List.not_mem_nil, or_false] at h
  rcases h with h | h | h | h | h | h | h | h | h | h <;> simp [decodeWord, h]

/-- Settles O4: six opcodes have illegal words, each counted off by the decoder's part for it, and the others none. -/
theorem illegalWordsAreExactlyTheListedOnes : Obligations.IllegalWordsAreExactlyTheListedOnes := by
  intro w
  have opcodes : ∀ v : BitVec 4, v = 0x0#4 ∨ v = 0x5#4 ∨ v = 0x8#4 ∨ v = 0x9#4 ∨ v = 0xE#4 ∨ v = 0xF#4 ∨
      v ∈ [0x1#4, 0x2#4, 0x3#4, 0x4#4, 0x6#4, 0x7#4, 0xA#4, 0xB#4, 0xC#4, 0xD#4] := by decide
  have hlow : w.toNat < 0x1000 ↔ w.toNat / 0x1000 = 0 := by omega
  rw [hlow]
  rcases opcodes (nibble1 w) with h | h | h | h | h | h | h
  · rw [decodeWord_of_nibble1_0 h, decode0_eq_none_iff, (nibble1_eq_iff w _).1 h]
    simp
  · rw [decodeWord_of_nibble1_5 h, decodeRegPair_eq_none_iff, (nibble1_eq_iff w _).1 h]
    simp
  · rw [decodeWord_of_nibble1_8 h, decode8_eq_none_iff, (nibble1_eq_iff w _).1 h]
    simp
  · rw [decodeWord_of_nibble1_9 h, decodeRegPair_eq_none_iff, (nibble1_eq_iff w _).1 h]
    simp
  · rw [decodeWord_of_nibble1_E h, decodeE_eq_none_iff, (nibble1_eq_iff w _).1 h]
    simp
  · rw [decodeWord_of_nibble1_F h, decodeF_eq_none_iff, (nibble1_eq_iff w _).1 h]
    simp
  · refine iff_of_false (decodeWord_ne_none h) ?_
    simp only [List.mem_cons, List.not_mem_nil, or_false, nibble1_eq_iff, BitVec.toNat_ofNat] at h
    omega

/-- Settles O5: the words have no free bit, so the decoder is run on each. -/
theorem writtenOutWordsDecode : Obligations.WrittenOutWordsDecode := by
  unfold Obligations.WrittenOutWordsDecode
  decide

end Sys2Proof
end

section
/-! PROOFS. Frames step by step: an update of a piece of state that a list of writes names stays within the list, so the
frame of an instruction is built along the updates it makes. -/

namespace Sys2Proof

open Sys2Proof.Machine

/-- An answer is at most one next state. -/
theorem next_unique {a : Answer} {s t : State} (hs : a = .next s) (ht : a = .next t) : s = t :=
  Host.Outcome.next.inj (hs.symm.trans ht)

section Frames

variable {w : Writes} {s t : State}

theorem Frame.refl (w : Writes) (s : State) : Frame w s s := by
  constructor <;> simp

theorem Frame.setReg (h : Frame w s t) {x : RegIx} (hx : x ∈ w.regs) (b : Byte) : Frame w s (t.setReg x b) :=
  { h with
    regs := fun r hr => by rw [State.setReg_reg, if_neg (by rintro rfl; exact hr hx), h.regs r hr] }

theorem Frame.setPc (h : Frame w s t) (hw : w.pc = true) (a : Word) : Frame w s (t.setPc a) :=
  { h with pc := by simp [hw] }

theorem Frame.setI (h : Frame w s t) (hw : w.i = true) (a : Word) : Frame w s (t.setI a) :=
  { h with i := by simp [hw] }

theorem Frame.setMode (h : Frame w s t) (hw : w.mode = true) (m : Mode) : Frame w s (t.setMode m) :=
  { h with mode := by simp [hw] }

theorem Frame.setDisplay (h : Frame w s t) (hw : w.display = true) (d : Display) : Frame w s (t.setDisplay d) :=
  { h with display := by simp [hw] }

theorem Frame.setKeyFlag (h : Frame w s t) (hw : w.keys = true) (k : Fin 16) (b : Bool) :
    Frame w s (t.setKeyFlag k b) :=
  { h with keys := by simp [hw] }

theorem Frame.setDt (h : Frame w s t) (hw : w.dt = true) (b : Byte) : Frame w s (t.setDt b) :=
  { h with dt := by simp [hw] }

theorem Frame.setSt (h : Frame w s t) (hw : w.st = true) (b : Byte) : Frame w s (t.setSt b) :=
  { h with st := by simp [hw] }

/-- A move of the stack and then a write of `pc`: what CALL and RET do. -/
theorem Frame.stack_setPc (h : Frame { stack := true } s t) (hpc : w.pc = true) (hstack : w.stack = true) (a : Word) :
    Frame w s (t.setPc a) where
  regs r _ := h.regs r List.not_mem_nil
  pc := by simp [hpc]
  i _ := h.i rfl
  mem a _ := h.mem a fun ha => Nat.not_lt_zero a ha.2
  display _ := h.display rfl
  stack := by simp [hstack]
  dt _ := h.dt rfl
  st _ := h.st rfl
  keys _ := h.keys rfl
  mode _ := h.mode rfl
  draws _ := h.draws rfl

/-- Bytes stored where the list says, below 4096. -/
theorem Frame.setMem_writeBytes (h : Frame w s t) {a : Nat} {bs : List Byte} (ha : w.storeAt = a)
    (hlen : w.storeLen = bs.length) (hin : a + bs.length ≤ 4096) :
    Frame w s (t.setMem (Memory.writeBytes t.mem a bs)) :=
  { h with
    mem := fun a' ha' => by
      rw [ha, hlen] at ha'
      rw [State.setMem_mem, Memory.read_writeBytes bs t.mem a a' hin, if_neg ha', h.mem a' (by rwa [ha, hlen])] }

/-- Fault entry writes the mode (60_exceptions.md R195). -/
theorem Frame.raiseFault (h : Frame w s t) (hw : w.mode = true) (c : FaultCause) (info : Word) :
    Frame w s (t.raiseFault c info) := by
  rw [State.raiseFault_eq]
  exact h.setMode hw _

end Frames

end Sys2Proof
end

section
/-! PROOFS. Jumps, CALL and RET (40_control_flow.md R101 to R104, 60_exceptions.md R191, R192): a jump is one write of
`pc`; CALL and RET move one return address between `pc` and the stack, or take a fault. -/

namespace Sys2Proof

open Sys2Proof.Machine

/-! ### Targets as numbers -/

@[simp] theorem addrImm_toNat (nnn : Addr12) : (addrImm nnn).toNat = nnn.toNat := by
  have := nnn.isLt
  rw [addrImm, BitVec.toNat_setWidth]
  omega

@[simp] theorem zext16_toNat (b : Byte) : (zext16 b).toNat = b.toNat := by
  have := b.isLt
  rw [zext16, BitVec.toNat_setWidth]
  omega

/-- The target of JP_V0 is at most 0xFFF + 0xFF, so the sum does not wrap (R104). -/
theorem addrImm_add_zext16_toNat (nnn : Addr12) (b : Byte) : (addrImm nnn + zext16 b).toNat = nnn.toNat + b.toNat := by
  have := nnn.isLt
  have := b.isLt
  rw [BitVec.toNat_add, addrImm_toNat, zext16_toNat]
  omega

/-! ### What the instructions do -/

theorem exec_jp (nnn : Addr12) (s : State) : exec (.jp nnn) s = .next (s.setPc (addrImm nnn)) := rfl

theorem exec_jpV0 (nnn : Addr12) (s : State) :
    exec (.jpV0 nnn) s = .next (s.setPc (addrImm nnn + zext16 (s.reg 0))) := rfl

theorem exec_call_of_push {s t : State} (h : s.push s.pc = some t) (nnn : Addr12) :
    exec (.call nnn) s = .next (t.setPc (addrImm nnn)) := by
  simp [exec, execCall, h]

theorem exec_call_full {s : State} (h : s.sp.val = 16) (nnn : Addr12) :
    exec (.call nnn) s = .next (s.raiseFault .stackOverflow 16#16) := by
  simp [exec, execCall, State.push_eq_none.mpr h, answerFault]

theorem exec_ret_of_pop {s t : State} {target : Word} (h : s.pop = some (target, t)) :
    exec .ret s = .next (t.setPc target) := by
  simp [exec, execRet, h]

theorem exec_ret_empty {s : State} (h : s.sp.val = 0) :
    exec .ret s = .next (s.raiseFault .stackUnderflow 0#16) := by
  simp [exec, execRet, State.pop_eq_none.mpr h, answerFault]

/-! ### The obligations -/

/-- Settles O14: one write of `pc` each, and 0xFFF + 0xFF is below 2^16. -/
theorem jumpsWriteTheirTarget : Obligations.JumpsWriteTheirTarget := fun nnn s =>
  ⟨⟨_, exec_jp nnn s, addrImm_toNat nnn, frame_setPc s _⟩,
    _, exec_jpV0 nnn s, addrImm_add_zext16_toNat nnn (s.reg 0), frame_setPc s _⟩

/-- Settles O15: the push of the post-fetch `pc` and then a write of `pc`. -/
theorem callPushesAndJumps : Obligations.CallPushesAndJumps := by
  intro nnn s h
  obtain ⟨t, ht, hsp, hslot, hframe⟩ := State.push_spec (w := s.pc) h
  exact ⟨_, exec_call_of_push ht nnn, addrImm_toNat nnn, hsp, hslot,
hframe.stack_setPc rfl rfl _⟩

/-- Settles O16: the pop and then a write of `pc` with the word popped. -/
theorem retPopsTheReturnAddress : Obligations.RetPopsTheReturnAddress := by
  intro s k h
  obtain ⟨k', t, hk', hpop, hsp, hslot, hframe⟩ := State.pop_spec (s := s) (by omega)
  obtain rfl : k' = k := Fin.ext (by omega)
  exact ⟨_, exec_ret_of_pop hpop, rfl, by rw [State.setPc_sp, hsp, hk'], hslot,
hframe.stack_setPc rfl rfl _⟩

/-- Settles O17: a push on a full stack and a pop of an empty one answer nothing, and the fault is taken instead. -/
theorem stackFaultsAreTaken : Obligations.StackFaultsAreTaken := fun _ hs =>
  ⟨fun h nnn => ⟨_, exec_call_full h nnn, State.raiseFault_taken hs ..⟩,
    fun h => ⟨_, exec_ret_empty h, State.raiseFault_taken hs ..⟩⟩

/-- Settles O18: RET pops the slot CALL filled, which is slot `sp` of the state before the CALL. -/
theorem returnUndoesCall : Obligations.ReturnUndoesCall := by
  intro nnn s v h hv
  obtain ⟨t, hcall, -, hsp, hslot, -⟩ := callPushesAndJumps nnn s h
  obtain ⟨hvsp, hvslot⟩ := hv t hcall
  obtain ⟨u, hret, hpc, husp, -⟩ := retPopsTheReturnAddress v ⟨s.sp.val, h⟩ (by rw [hvsp, hsp])
  exact ⟨u, hret, by rw [hpc, hvslot, hslot, if_pos rfl], Fin.ext husp⟩

end Sys2Proof
end

section
/-! PROOFS. Keys (41_skips.md R115, R116, 60_exceptions.md R209, 45_timers_keys.md R161): the key skips share one test,
which faults on a byte that names no key; LD_VX_K writes the mode alone. -/

namespace Sys2Proof

open Sys2Proof.Machine

theorem zext16_eq_ofNat (b : Byte) : zext16 b = BitVec.ofNat 16 b.toNat := (BitVec.ofNat_toNat 16 b).symm

/-! ### What the instructions do -/

theorem skipOnKey_of_key {x : RegIx} {s : State} {k : Fin 16} (h : (s.reg x).toNat = k.val) (want : Bool) :
    skipOnKey x want s = .next (s.setPc (if s.key k = want then s.pc + 2#16 else s.pc)) := by
  simp [skipOnKey, keyIndex_eq_some.mpr h, State.skipIf_eq]

theorem skipOnKey_of_gt {x : RegIx} {s : State} (h : 15 < (s.reg x).toNat) (want : Bool) :
    skipOnKey x want s = .next (s.raiseFault .keyIndex (BitVec.ofNat 16 (s.reg x).toNat)) := by
  simp [skipOnKey, keyIndex_eq_none.mpr h, answerFault, zext16_eq_ofNat]

theorem exec_skp (x : RegIx) (s : State) : exec (.skp x) s = skipOnKey x true s := rfl

theorem exec_sknp (x : RegIx) (s : State) : exec (.sknp x) s = skipOnKey x false s := rfl

theorem exec_ldVxK (x : RegIx) (s : State) : exec (.ldVxK x) s = .next (s.setMode (.awaitingKey x)) := rfl

/-! ### The obligations -/

/-- Settles O21: the shared test with `want` true and false. -/
theorem keySkipsTestTheNamedKey : Obligations.KeySkipsTestTheNamedKey := fun x k s h =>
  ⟨⟨_, (exec_skp x s).trans (skipOnKey_of_key h true), rfl, frame_setPc s _⟩,
    _, (exec_sknp x s).trans (skipOnKey_of_key h false), by cases s.key k <;> simp, frame_setPc s _⟩

/-- Settles O22: the shared test finds no key, whichever flag it wants. -/
theorem keyIndexFaultsAreTaken : Obligations.KeyIndexFaultsAreTaken := fun x s hs h =>
  ⟨⟨_, (exec_skp x s).trans (skipOnKey_of_gt h true), State.raiseFault_taken hs ..⟩,
    _, (exec_sknp x s).trans (skipOnKey_of_gt h false), State.raiseFault_taken hs ..⟩

/-- Settles O41: one write, of the mode, which no key flag decides. -/
theorem ldVxKEntersTheWait : Obligations.LdVxKEntersTheWait := fun x s =>
  ⟨_, exec_ldVxK x s, rfl, rfl, (Frame.refl _ s).setMode rfl _⟩

end Sys2Proof
end

section
/-! PROOFS. Shifts, RND and the arithmetic of `I` (42_load_alu.md R130, R132, R133, 43_index_memory.md R140 to R142). -/

namespace Sys2Proof.Machine

/-! ### A flag and then a result (R121) -/

theorem State.flagThenResult_reg (s : State) (x : RegIx) (result flag : Byte) :
    (s.flagThenResult x result flag).reg x = result :=
  State.setReg_reg_same (s.setReg flagReg flag) x result

theorem State.flagThenResult_reg_15_of_ne (s : State) {x : RegIx} (hx : x ≠ 15) (result flag : Byte) :
    (s.flagThenResult x result flag).reg 15 = flag := by
  rw [State.flagThenResult, State.setReg_reg, if_neg hx.symm]
  exact State.setReg_reg_same s flagReg flag

theorem frame_flagThenResult (s : State) (x : RegIx) (result flag : Byte) :
    Frame { regs := [x, 15] } s (s.flagThenResult x result flag) :=
  ((Frame.refl _ s).setReg (by simp [flagReg]) flag).setReg (by simp) result

/-! ### The bits moved out (R130, R132) -/

theorem lowBitFlag_eq (b : Byte) : lowBitFlag b = if b.toNat % 2 = 1 then 1#8 else 0#8 := by
  simp [lowBitFlag, flagByte, BitVec.getLsbD, Nat.testBit_zero]

theorem highBitFlag_eq (b : Byte) : highBitFlag b = if 128 ≤ b.toNat then 1#8 else 0#8 := by
  have hb := b.isLt
  have h : b.getLsbD 7 = decide (128 ≤ b.toNat) := by
    rw [BitVec.getLsbD, Nat.testBit_eq_decide_div_mod_eq, decide_eq_decide]
    omega
  simp only [highBitFlag, flagByte, h, decide_eq_true_eq]

theorem shiftRight_one_toNat (b : Byte) : (b >>> 1).toNat = b.toNat / 2 := by
  rw [BitVec.toNat_ushiftRight, Nat.shiftRight_eq_div_pow, pow_one]

theorem shiftLeft_one_toNat (b : Byte) : (b <<< 1).toNat = b.toNat * 2 % 256 := by
  rw [BitVec.toNat_shiftLeft, Nat.shiftLeft_eq, pow_one]

end Sys2Proof.Machine

namespace Sys2Proof

open Sys2Proof.Machine

/-- Five times a byte is at most 1275 (R142). -/
theorem glyphAddr_toNat (b : Byte) : (glyphAddr b).toNat = 5 * b.toNat := by
  have := b.isLt
  rw [glyphAddr, BitVec.toNat_mul, zext16_toNat, BitVec.toNat_ofNat]
  omega

/-- A write of `I` leaves every other piece of state alone. -/
theorem frame_setI (s : State) (a : Word) : Frame { i := true } s (s.setI a) := (Frame.refl _ s).setI rfl a

/-! ### What the instructions do -/

theorem exec_shr (x y : RegIx) (s : State) :
    exec (.shr x y) s = .next (s.flagThenResult x (s.reg y >>> 1) (lowBitFlag (s.reg y))) := rfl

theorem exec_shl (x y : RegIx) (s : State) :
    exec (.shl x y) s = .next (s.flagThenResult x (s.reg y <<< 1) (highBitFlag (s.reg y))) := rfl

theorem exec_rnd (x : RegIx) (nn : Byte) (s : State) :
    exec (.rnd x nn) s = .next (s.draw.2.setReg x (Config.randomByte s.draws &&& nn)) := rfl

theorem exec_ldI (nnn : Addr12) (s : State) : exec (.ldI nnn) s = .next (s.setI (addrImm nnn)) := rfl

theorem exec_addI (x : RegIx) (s : State) : exec (.addI x) s = .next (s.setI (s.i + zext16 (s.reg x))) := rfl

theorem exec_ldF (x : RegIx) (s : State) : exec (.ldF x) s = .next (s.setI (glyphAddr (s.reg x))) := rfl

/-- A draw and a write of `V[x]` touch the draw counter and that register. -/
theorem frame_draw_setReg (s : State) (x : RegIx) (b : Byte) :
    Frame { regs := [x], draws := true } s (s.draw.2.setReg x b) := by
  refine Frame.setReg ?_ List.mem_cons_self b
  constructor <;> simp

/-! ### The obligations -/

/-- Settles O29: the operand is the old `V[Y]`, and the result is written last, so it stands at every X. -/
theorem shiftsMoveVyByOnePlace : Obligations.ShiftsMoveVyByOnePlace := fun x y s =>
  ⟨⟨_, exec_shr x y s, by rw [State.flagThenResult_reg, shiftRight_one_toNat],
      fun hx => by rw [State.flagThenResult_reg_15_of_ne s hx, lowBitFlag_eq], frame_flagThenResult ..⟩,
    _, exec_shl x y s, by rw [State.flagThenResult_reg, shiftLeft_one_toNat],
      fun hx => by rw [State.flagThenResult_reg_15_of_ne s hx, highBitFlag_eq], frame_flagThenResult ..⟩

/-- Settles O30: nothing is used of the byte drawn but the AND with NN. -/
theorem rndMasksAFreshByte : Obligations.RndMasksAFreshByte := fun x nn s =>
  ⟨_, exec_rnd x nn s, State.setReg_reg_same ..,
    fun j hj => by rw [State.setReg_reg_same, BitVec.getLsbD_and, hj, Bool.and_false], rfl, frame_draw_setReg ..⟩

/-- Settles O31: one write of `I` each; a 16-bit addition is the sum modulo 65536. -/
theorem indexLoadAndAddWrap : Obligations.IndexLoadAndAddWrap :=
  ⟨fun nnn s => ⟨decodeWord_encodeA_ldI nnn, _, exec_ldI nnn s, addrImm_toNat nnn, frame_setI ..⟩,
    fun x s => ⟨decodeWord_encodeU_addI x, _, exec_addI x s,
      by rw [State.setI_i, BitVec.toNat_add, zext16_toNat], frame_setI ..⟩⟩

/-- Settles O32: one write of `I`, with a product that does not wrap. -/
theorem ldFPointsAtTheGlyph : Obligations.LdFPointsAtTheGlyph := fun x s =>
  ⟨_, exec_ldF x s, glyphAddr_toNat (s.reg x), frame_setI ..⟩

end Sys2Proof
end

section
/-! PROOFS. Loads and stores through `I` (43_index_memory.md R143 to R145, 60_exceptions.md R194): the bytes stored and
loaded one by one, and the range check that precedes every one of them. -/

namespace Sys2Proof.Machine

/-! ### Bytes written and read in order -/

/-- The `k`-th of the bytes written from `a` up is read at `a + k`. -/
theorem Memory.read_writeBytes_add {bs : List Byte} {k : Nat} (hk : k < bs.length) (m : Memory) {a : Nat}
    (h : a + bs.length ≤ 4096) : Memory.read (Memory.writeBytes m a bs) (a + k) = bs.getD k 0#8 := by
  rw [Memory.read_writeBytes bs m a (a + k) h, if_pos (by omega), Nat.add_sub_cancel_left]

theorem Memory.readBytes_getD (m : Memory) {a n k : Nat} (hk : k < n) :
    (Memory.readBytes m a n).getD k 0#8 = Memory.read m (a + k) := by
  rw [List.getD_eq_getElem _ _ (by rwa [Memory.readBytes_length]), Memory.readBytes_getElem]

@[simp] theorem bcdDigits_length (b : Byte) : (bcdDigits b).length = 3 := rfl

/-- The digits of `b`, hundreds first (R143). -/
theorem bcdDigits_toNat (b : Byte) :
    ((bcdDigits b).getD 0 0#8).toNat = b.toNat / 100 ∧ ((bcdDigits b).getD 1 0#8).toNat = b.toNat / 10 % 10 ∧
    ((bcdDigits b).getD 2 0#8).toNat = b.toNat % 10 := by
  simp [bcdDigits]

/-- `I` after a transfer of `n` bytes in range does not wrap. -/
theorem State.i_add_toNat {s : State} {n : Nat} (h : s.i.toNat + n ≤ 0x1000) :
    (s.i + BitVec.ofNat 16 n).toNat = s.i.toNat + n := by
  rw [BitVec.toNat_add, BitVec.toNat_ofNat]
  omega

end Sys2Proof.Machine

namespace Sys2Proof

open Sys2Proof.Machine

theorem mem_regsThrough {x k : RegIx} : k ∈ regsThrough x ↔ k ≤ x := by
  simp [regsThrough]

/-! ### What the instructions do, in range -/

/-- LD_B stores three digits at `I`. -/
theorem exec_ldB {x : RegIx} {s : State} (h : s.i.toNat + 2 ≤ 0x0FFF) :
    exec (.ldB x) s = .next (s.setMem (Memory.writeBytes s.mem s.base (bcdDigits (s.reg x)))) :=
  withAccess_inRange s _ (.inr h)

theorem exec_ldMemVx {x : RegIx} {s : State} (h : s.i.toNat + x.val ≤ 0x0FFF) :
    exec (.ldMemVx x) s = .next ((s.setMem (Memory.writeBytes s.mem s.base (s.regsUpTo x))).setI
      (s.i + BitVec.ofNat 16 (x.val + 1))) :=
  withAccess_inRange s _ (.inr h)

theorem exec_ldVxMem {x : RegIx} {s : State} (h : s.i.toNat + x.val ≤ 0x0FFF) :
    exec (.ldVxMem x) s = .next ((s.setRegs (loadRegs s.v 0 (Memory.readBytes s.mem s.base (x.val + 1)))).setI
      (s.i + BitVec.ofNat 16 (x.val + 1))) :=
  withAccess_inRange s _ (.inr h)

/-! ### Frames of block transfers -/

section Frames

variable {w : Writes} {s t : State}

/-- Registers 0 to `x` loaded, where the list names them. -/
theorem Frame.loadRegs (h : Frame w s t) {x : RegIx} {bs : List Byte} (hlen : bs.length = x.val + 1)
    (hw : ∀ k ≤ x, k ∈ w.regs) : Frame w s (t.setRegs (loadRegs t.v 0 bs)) :=
  { h with
    regs := fun r hr => by
      have hx : x.val < r.val := Fin.not_le.mp fun hle => hr (hw r hle)
      rw [State.setRegs_reg, loadRegs_getElem bs t.v 0 r.val r.isLt, if_neg (by omega)]
      exact h.regs r hr }

/-- What LD_B stores lies in the three bytes at `I`. -/
theorem Frame.ldB (h : s.i.toNat + 2 ≤ 0x0FFF) (hat : w.storeAt = s.base) (hlen : w.storeLen = 3) (b : Byte) :
    Frame w s (s.setMem (Memory.writeBytes s.mem s.base (bcdDigits b))) :=
  (Frame.refl w s).setMem_writeBytes hat hlen (by rw [State.base, bcdDigits_length]; omega)

/-- What LD_MEM_VX stores lies in the X + 1 bytes at `I`. -/
theorem Frame.ldMemVx {x : RegIx} (h : s.i.toNat + x.val ≤ 0x0FFF) (hat : w.storeAt = s.base)
    (hlen : w.storeLen = x.val + 1) : Frame w s (s.setMem (Memory.writeBytes s.mem s.base (s.regsUpTo x))) :=
  (Frame.refl w s).setMem_writeBytes hat (by rw [hlen, State.regsUpTo_length])
    (by rw [State.base, State.regsUpTo_length]; omega)

end Frames

/-! ### The obligations -/

/-- Settles O33: the three digits written are read back at `I`, `I + 1` and `I + 2`. -/
theorem ldBStoresDecimalDigits : Obligations.LdBStoresDecimalDigits := by
  intro x s h
  have hin : s.base + (bcdDigits (s.reg x)).length ≤ 4096 := by rw [State.base, bcdDigits_length]; omega
  have hread {k : Nat} (hk : k < 3) := Memory.read_writeBytes_add (bs := bcdDigits (s.reg x)) hk s.mem hin
  obtain ⟨h0, h1, h2⟩ := bcdDigits_toNat (s.reg x)
  exact ⟨_, exec_ldB h, by rw [← h0, ← hread (by decide)]; rfl, by rw [← h1, ← hread (by decide)]; rfl,
    by rw [← h2, ← hread (by decide)]; rfl, Frame.ldB h rfl rfl _⟩

/-- Settles O34: the `k`-th byte written is `V[k]`, read back at `I + k`. -/
theorem ldMemVxStoresTheRegisters : Obligations.LdMemVxStoresTheRegisters := by
  intro x s h
  refine ⟨_, exec_ldMemVx h, fun k (hk : k.val ≤ x.val) => ?_, State.i_add_toNat (by omega),
    (Frame.ldMemVx h rfl rfl).setI rfl _⟩
  have hlen : (s.regsUpTo x).length = x.val + 1 := State.regsUpTo_length s x
  rw [State.setI_mem, State.setMem_mem, Memory.read_writeBytes_add (by omega) s.mem (by rw [State.base]; omega),
    State.regsUpTo_getD s x k hk]

/-- Settles O35: register `k` receives the `k`-th byte read, where there is one. -/
theorem ldVxMemLoadsTheRegisters : Obligations.LdVxMemLoadsTheRegisters := by
  intro x s h
  have hlen : (Memory.readBytes s.mem s.base (x.val + 1)).length = x.val + 1 := Memory.readBytes_length ..
  have hframe : Frame { regs := regsThrough x, i := true } s
      (s.setRegs (loadRegs s.v 0 (Memory.readBytes s.mem s.base (x.val + 1)))) :=
    (Frame.refl _ s).loadRegs hlen fun k hk => mem_regsThrough.mpr hk
  refine ⟨_, exec_ldVxMem h, fun k (hk : k.val ≤ x.val) => ?_, fun k hk => ?_,
    State.i_add_toNat (by omega), hframe.setI rfl _⟩
  · rw [State.setI_reg, State.setRegs_reg, loadRegs_getElem _ _ _ _ k.isLt, if_pos (by omega), Nat.sub_zero,
      Memory.readBytes_getD s.mem (by omega)]
  · exact hframe.regs k fun hmem => absurd (mem_regsThrough.mp hmem) (Fin.not_le.mpr hk)

/-- Settles O36: all four instructions stand behind the range check, which takes the fault before any write. -/
theorem addressFaultsAreTaken : Obligations.AddressFaultsAreTaken := fun s hs =>
  ⟨fun _ h => ⟨_, withAccess_outOfRange s _ (by decide) h, State.raiseFault_taken hs ..⟩,
    fun x h => ⟨⟨_, withAccess_outOfRange s _ (Nat.succ_pos x.val) h, State.raiseFault_taken hs ..⟩,
      _, withAccess_outOfRange s _ (Nat.succ_pos x.val) h, State.raiseFault_taken hs ..⟩,
    fun _ _ _ hn h => ⟨_, withAccess_outOfRange s _ hn h, State.raiseFault_taken hs ..⟩⟩

end Sys2Proof
end

section
/-! PROOFS. DRW (44_display.md R151, R153): the loop toggles the sprite's cells, each once, and these are the cells the
closed form names; so a second DRW toggles the same cells back. -/

namespace Sys2Proof

open Sys2Proof.Machine

/-- The cells DRW toggles: those the set bits of the `n` bytes at `I` fall on. -/
def drwCells (s : State) (x y : RegIx) (n : Nat) : List (Fin 64 × Fin 32) :=
  spriteCells (s.reg x).toNat (s.reg y).toNat (Memory.readBytes s.mem s.base n)

theorem mem_drwCells {s : State} {x y : RegIx} {n : Nat} {px : Fin 64} {py : Fin 32} :
    (px, py) ∈ drwCells s x y n ↔ SpriteCovers s (s.reg x).toNat (s.reg y).toNat n px py := by
  rw [drwCells, mem_spriteCells, Memory.readBytes_length]
  refine exists_congr fun r => exists_congr fun c => and_congr_right fun hr => ?_
  rw [Memory.readBytes_getD s.mem hr]
  rfl

theorem nodup_drwCells (s : State) (x y : RegIx) {n : Nat} (hn : n < 16) : (drwCells s x y n).Nodup :=
  nodup_spriteCells _ _ _ (by rw [Memory.readBytes_length]; omega)

/-- DRW in range toggles its cells, and then writes the collision to `V[15]`. -/
theorem exec_drw {x y : RegIx} {n : Nat} {s : State} (h : n = 0 ∨ s.i.toNat + n - 1 ≤ 0x0FFF) :
    exec (.drw x y n) s =
      .next ((s.setDisplay (drawCells (s.display, false) (drwCells s x y n)).1).setReg flagReg
        (flagByte (drawCells (s.display, false) (drwCells s x y n)).2)) := by
  rw [drwCells, ← drawRows_eq_drawCells]
  exact withAccess_inRange s _ h

theorem frame_drw (s : State) (d : Display) (flag : Byte) :
    Frame { regs := [15], display := true } s ((s.setDisplay d).setReg flagReg flag) :=
  ((Frame.refl _ s).setDisplay rfl d).setReg List.mem_cons_self flag

/-- Settles O38: the cells toggled are the ones covered, and the collision is one of them that was lit. -/
theorem drwTogglesTheCoveredCells : Obligations.DrwTogglesTheCoveredCells := by
  intro x y n s hwf hin
  have hn : n < 16 := of_decide_eq_true hwf
  have hget := drawCells_get (nodup_drwCells s x y hn) (s.display, false)
  have hcol := drawCells_collision (nodup_drwCells s x y hn) (s.display, false)
  refine ⟨_, exec_drw hin, fun px py hc => ?_, fun px py hc => ?_, fun hlit => ?_, fun hdark => ?_, frame_drw ..⟩
  · rw [State.setReg_pixel, State.setDisplay_pixel, hget, if_pos (mem_drwCells.mpr hc)]
    rfl
  · rw [State.setReg_pixel, State.setDisplay_pixel, hget, if_neg (mt mem_drwCells.mp hc)]
    rfl
  · obtain ⟨px, py, hc, hp⟩ := hlit
    refine (State.setReg_reg_same _ flagReg _).trans ?_
    rw [hcol.mpr (.inr ⟨(px, py), mem_drwCells.mpr hc, hp⟩)]
    rfl
  · have hnone : (drawCells (s.display, false) (drwCells s x y n)).2 = false := by
      rw [← Bool.not_eq_true, hcol]
      rintro (h | ⟨⟨px, py⟩, hc, hp⟩)
      · cases h
      · exact Bool.false_ne_true ((hdark px py (mem_drwCells.mp hc)).symm.trans hp)
    refine (State.setReg_reg_same _ flagReg _).trans ?_
    rw [hnone]
    rfl

/-- What a sprite covers depends on its origin, `I` and memory. -/
theorem SpriteCovers.congr {s v : State} (hi : v.i = s.i) (hmem : ∀ a, Memory.read v.mem a = Memory.read s.mem a)
    (x0 y0 n : Nat) (px : Fin 64) (py : Fin 32) : SpriteCovers v x0 y0 n px py ↔ SpriteCovers s x0 y0 n px py := by
  simp only [SpriteCovers, State.base, hi, hmem]

/-- Settles O39: the second DRW covers the cells of the first, and toggling a cell twice restores it. -/
theorem drwTwiceRestoresTheDisplay : Obligations.DrwTwiceRestoresTheDisplay := by
  intro x y n s t v hwf hin ht hv hx hy hi hmem
  obtain ⟨t', ht', hon, hoff, -⟩ := drwTogglesTheCoveredCells x y n s hwf hin
  obtain rfl : t = t' := next_unique ht ht'
  obtain ⟨u, hu, hon', hoff', -⟩ := drwTogglesTheCoveredCells x y n v hwf (hi ▸ hin)
  rw [hx, hy] at hon' hoff'
  refine ⟨u, hu, fun px py => ?_⟩
  have hsame := SpriteCovers.congr hi hmem (s.reg x).toNat (s.reg y).toNat n px py
  by_cases hc : SpriteCovers s (s.reg x).toNat (s.reg y).toNat n px py
  · rw [hon' px py (hsame.mpr hc), hv, hon px py hc, Bool.not_not]
  · rw [hoff' px py (mt hsame.mp hc), hv, hoff px py hc]

/-! ### The flag (10_state.md R22) -/

theorem flagByte_zero_or_one (c : Bool) : flagByte c = 0#8 ∨ flagByte c = 1#8 := by
  cases c
  · exact .inl rfl
  · exact .inr rfl

/-- An instruction whose answer holds a flag byte in `V[15]` leaves 0 or 1 there. -/
theorem reg_15_zero_or_one {i : Instr} {s t u : State} {c : Bool} (hu : exec i s = .next u)
    (hflag : u.reg 15 = flagByte c) (ht : exec i s = .next t) : t.reg 15 = 0#8 ∨ t.reg 15 = 1#8 := by
  obtain rfl : u = t := next_unique hu ht
  rw [hflag]
  exact flagByte_zero_or_one c

/-- Settles O47: what each of the six writes to `V[15]` is the byte of a one-bit flag. -/
theorem flagIsZeroOrOne : Obligations.FlagIsZeroOrOne := by
  rintro x y n s t (h | h | h | ⟨hx, h | h⟩ | ⟨h, hin⟩)
  · exact reg_15_zero_or_one (exec_addReg x y s) (State.resultThenFlag_reg_15 ..) h
  · exact reg_15_zero_or_one (exec_sub x y s) (State.resultThenFlag_reg_15 ..) h
  · exact reg_15_zero_or_one (exec_subn x y s) (State.resultThenFlag_reg_15 ..) h
  · exact reg_15_zero_or_one (exec_shr x y s) (State.flagThenResult_reg_15_of_ne s hx ..) h
  · exact reg_15_zero_or_one (exec_shl x y s) (State.flagThenResult_reg_15_of_ne s hx ..) h
  · exact reg_15_zero_or_one (exec_drw hin) (State.setReg_reg_same _ flagReg _) h

end Sys2Proof
end

section
/-! PROOFS. What every instruction may write, said once for all 35 forms: no instruction stops the model, each stays
within its list of writes, and each keeps memory canonical. The rules about the whole machine are read off the lists. -/

namespace Sys2Proof.Machine

/-! ### Operations that leave memory alone -/

theorem State.raiseFault_mem (s : State) (c : FaultCause) (info : Word) : (s.raiseFault c info).mem = s.mem := by
  rw [State.raiseFault_eq, State.setMode_mem]

theorem State.push_mem {s t : State} {a : Word} (h : s.push a = some t) : t.mem = s.mem := by
  unfold State.push at h
  split at h
  · cases h; rfl
  · cases h

theorem State.pop_mem {s t : State} {a : Word} (h : s.pop = some (a, t)) : t.mem = s.mem := by
  unfold State.pop at h
  split at h
  · cases h
  · cases h; rfl

end Sys2Proof.Machine

namespace Sys2Proof

open Sys2Proof.Machine

/-! ### The list of an instruction's writes -/

/-- What an instruction may write at the state `s`, as its rule says. An instruction that can fault may write the mode
(60_exceptions.md R195); a store writes from `I` up (43_index_memory.md R146). -/
def writesOf (i : Instr) (s : State) : Writes :=
  match i with
  | .nop => {}
  | .cls => { display := true }
  | .ret | .call _ => { pc := true, stack := true, mode := true }
  | .jp _ | .jpV0 _ | .seImm _ _ | .sneImm _ _ | .seReg _ _ | .sneReg _ _ => { pc := true }
  | .skp _ | .sknp _ => { pc := true, mode := true }
  | .ldImm x _ | .addImm x _ | .ldReg x _ | .or x _ | .and x _ | .xor x _ | .ldVxDt x => { regs := [x] }
  | .addReg x _ | .sub x _ | .shr x _ | .subn x _ | .shl x _ => { regs := [x, 15] }
  | .rnd x _ => { regs := [x], draws := true }
  | .drw _ _ _ => { regs := [15], display := true, mode := true }
  | .ldVxK _ => { mode := true }
  | .ldDtVx _ => { dt := true }
  | .ldStVx _ => { st := true }
  | .ldI _ | .addI _ | .ldF _ => { i := true }
  | .ldB _ => { storeAt := s.base, storeLen := 3, mode := true }
  | .ldMemVx x => { i := true, storeAt := s.base, storeLen := x.val + 1, mode := true }
  | .ldVxMem x => { regs := regsThrough x, i := true, mode := true }

theorem writesOf_regs (i : Instr) (s : State) : (writesOf i s).regs = mayWriteRegs i := by
  cases i <;> rfl

theorem writesOf_keys (i : Instr) (s : State) : (writesOf i s).keys = false := by
  cases i <;> rfl

theorem writesOf_pc (i : Instr) (s : State) : (writesOf i s).pc = false ↔
    i.name ∉ ["JP", "CALL", "RET", "JP_V0", "SE_IMM", "SNE_IMM", "SE_REG", "SNE_REG", "SKP", "SKNP"] := by
  cases i <;> simp [writesOf, Instr.name]

theorem writesOf_display (i : Instr) (s : State) : (writesOf i s).display = false ↔ i.name ∉ ["CLS", "DRW"] := by
  cases i <;> simp [writesOf, Instr.name]

theorem writesOf_storeLen (i : Instr) (s : State) : (writesOf i s).storeLen = 0 ↔ i.name ∉ ["LD_B", "LD_MEM_VX"] := by
  cases i <;> simp [writesOf, Instr.name]

theorem writesOf_stack (i : Instr) (s : State) : (writesOf i s).stack = false ↔ i.name ∉ ["CALL", "RET"] := by
  cases i <;> simp [writesOf, Instr.name]

theorem writesOf_dt (i : Instr) (s : State) : (writesOf i s).dt = false ↔ i.name ≠ "LD_DT_VX" := by
  cases i <;> simp [writesOf, Instr.name]

theorem writesOf_st (i : Instr) (s : State) : (writesOf i s).st = false ↔ i.name ≠ "LD_ST_VX" := by
  cases i <;> simp [writesOf, Instr.name]

/-! ### Answers that stay within a list -/

/-- `a` is a next state that differs from `s` only where `w` says, and whose memory is canonical if that of `s` is. -/
def AnswersWithin (w : Writes) (s : State) (a : Answer) : Prop :=
  ∃ t, a = .next t ∧ Frame w s t ∧ (Memory.wf s.mem = true → Memory.wf t.mem = true)

section Answers

variable {w : Writes} {s t : State}

/-- A next state that shares the memory of `s`. -/
theorem AnswersWithin.next (h : Frame w s t) (hmem : t.mem = s.mem) : AnswersWithin w s (.next t) :=
  ⟨t, rfl, h, fun hwf => hmem ▸ hwf⟩

/-- A next state whose memory is that of `s` with bytes stored. -/
theorem AnswersWithin.store (h : Frame w s t) {a : Nat} {bs : List Byte} (hmem : t.mem = Memory.writeBytes s.mem a bs) :
    AnswersWithin w s (.next t) :=
  ⟨t, rfl, h, fun hwf => hmem ▸ Memory.wf_writeBytes bs a hwf⟩

theorem AnswersWithin.fault (hw : w.mode = true) (s : State) (c : FaultCause) (info : Word) :
    AnswersWithin w s (.next (s.raiseFault c info)) :=
  .next ((Frame.refl w s).raiseFault hw c info) (State.raiseFault_mem s c info)

theorem AnswersWithin.withAccess (hw : w.mode = true) {base n : Nat} {k : Answer}
    (hk : n = 0 ∨ base + n - 1 ≤ 0x0FFF → AnswersWithin w s k) : AnswersWithin w s (withAccess s base n k) := by
  by_cases h : n = 0 ∨ base + n - 1 ≤ 0x0FFF
  · rw [withAccess_inRange s k h]
    exact hk h
  · rw [withAccess_outOfRange s k (by omega) (by omega)]
    exact .fault hw s ..

theorem exec_call_within (hpc : w.pc = true) (hstack : w.stack = true) (hmode : w.mode = true) (nnn : Addr12) :
    AnswersWithin w s (exec (.call nnn) s) := by
  by_cases h : s.sp.val < 16
  · obtain ⟨t, ht, -, -, hframe⟩ := State.push_spec (w := s.pc) h
    rw [exec_call_of_push ht]
    exact .next (hframe.stack_setPc hpc hstack _) ((State.setPc_mem ..).trans (State.push_mem ht))
  · rw [exec_call_full (by omega)]
    exact .fault hmode s ..

theorem exec_ret_within (hpc : w.pc = true) (hstack : w.stack = true) (hmode : w.mode = true) :
    AnswersWithin w s (exec .ret s) := by
  by_cases h : s.sp.val = 0
  · rw [exec_ret_empty h]
    exact .fault hmode s ..
  · obtain ⟨k, t, -, ht, -, -, hframe⟩ := State.pop_spec h
    rw [exec_ret_of_pop ht]
    exact .next (hframe.stack_setPc hpc hstack _) ((State.setPc_mem ..).trans (State.pop_mem ht))

theorem skipOnKey_within (hpc : w.pc = true) (hmode : w.mode = true) (x : RegIx) (want : Bool) :
    AnswersWithin w s (skipOnKey x want s) := by
  by_cases h : (s.reg x).toNat < 16
  · rw [skipOnKey_of_key (k := ⟨_, h⟩) rfl]
    exact .next ((Frame.refl w s).setPc hpc _) rfl
  · rw [skipOnKey_of_gt (by omega)]
    exact .fault hmode s ..

end Answers

/-! ### All 35 forms -/

/-- Every instruction answers a next state, within its list of writes and with memory kept canonical. -/
theorem exec_within (i : Instr) (s : State) : AnswersWithin (writesOf i s) s (exec i s) := by
  have skip (a : Word) : AnswersWithin { pc := true } s (.next (s.setPc a)) := .next (frame_setPc s a) rfl
  have load (x : RegIx) (b : Byte) : AnswersWithin { regs := [x] } s (.next (s.setReg x b)) :=
    .next (frame_setReg s x b) rfl
  have index (a : Word) : AnswersWithin { i := true } s (.next (s.setI a)) := .next (frame_setI s a) rfl
  cases i with
  | nop => exact .next (Frame.refl _ s) rfl
  | cls => exact .next (frame_setDisplay s _) rfl
  | ret => exact exec_ret_within rfl rfl rfl
  | call nnn => exact exec_call_within rfl rfl rfl nnn
  | jp nnn => exact skip _
  | jpV0 nnn => exact skip _
  | seImm x nn => exact exec_seImm x nn s ▸ skip _
  | sneImm x nn => exact exec_sneImm x nn s ▸ skip _
  | seReg x y => exact exec_seReg x y s ▸ skip _
  | sneReg x y => exact exec_sneReg x y s ▸ skip _
  | skp x => exact skipOnKey_within rfl rfl x true
  | sknp x => exact skipOnKey_within rfl rfl x false
  | ldImm x nn => exact load x _
  | addImm x nn => exact load x _
  | ldReg x y => exact load x _
  | or x y => exact load x _
  | and x y => exact load x _
  | xor x y => exact load x _
  | ldVxDt x => exact load x _
  | addReg x y => exact .next (frame_resultThenFlag s x _ _) rfl
  | sub x y => exact .next (frame_resultThenFlag s x _ _) rfl
  | subn x y => exact .next (frame_resultThenFlag s x _ _) rfl
  | shr x y => exact .next (frame_flagThenResult s x _ _) rfl
  | shl x y => exact .next (frame_flagThenResult s x _ _) rfl
  | rnd x nn => exact .next (frame_draw_setReg s x _) rfl
  | drw x y n =>
    exact .withAccess rfl fun _ => .next (((Frame.refl _ s).setDisplay rfl _).setReg List.mem_cons_self _) rfl
  | ldVxK x => exact .next ((Frame.refl _ s).setMode rfl _) rfl
  | ldDtVx x => exact .next (frame_setDt s _) rfl
  | ldStVx x => exact .next (frame_setSt s _) rfl
  | ldI nnn => exact index _
  | addI x => exact index _
  | ldF x => exact index _
  | ldB x => exact .withAccess rfl fun h => .store (Frame.ldB (h.resolve_left (by decide)) rfl rfl _) rfl
  | ldMemVx x =>
    exact .withAccess rfl fun h =>
      .store ((Frame.ldMemVx (h.resolve_left (Nat.succ_ne_zero _)) rfl rfl).setI rfl _) rfl
  | ldVxMem x =>
    exact .withAccess rfl fun _ =>
      .next (((Frame.refl _ s).loadRegs (Memory.readBytes_length ..) fun _ => mem_regsThrough.mpr).setI rfl _) rfl

theorem exec_frame {i : Instr} {s t : State} (h : exec i s = .next t) : Frame (writesOf i s) s t := by
  obtain ⟨t', ht', hframe, -⟩ := exec_within i s
  exact next_unique ht' h ▸ hframe

/-! ### The obligations about instructions alone -/

/-- Settles O12: the forms whose list holds `pc` are the ones named. -/
theorem onlyControlFlowMovesPc : Obligations.OnlyControlFlowMovesPc := fun _ s _ h hname =>
  (exec_frame h).pc ((writesOf_pc _ s).mpr hname)

/-- Settles O46: the registers of an instruction's list are those its rule names. -/
theorem onlyNamedRegistersAreWritten : Obligations.OnlyNamedRegistersAreWritten := fun i s _ h r hr =>
  (exec_frame h).regs r (by rwa [writesOf_regs])

end Sys2Proof
end

section
/-! PROOFS. The step (30_encoding.md R73, R77): five cases by mode, fetch and decode, of which one runs an instruction;
what each does, and what a step that runs no instruction may write. -/

namespace Sys2Proof.Machine

/-- The lowest pressed key is the one found. -/
theorem State.lowestKey_eq_some {s : State} {k : Fin 16} (hk : s.key k = true) (hlow : ∀ j, j < k → s.key j = false) :
    s.lowestKey = some k := by
  cases h : s.lowestKey with
  | none => exact absurd (State.lowestKey_eq_none.mp h k) (by simp [hk])
  | some k' =>
    obtain ⟨hk', hlow'⟩ := State.lowestKey_spec h
    rcases lt_trichotomy k k' with hlt | rfl | hlt
    · exact absurd (hlow' k hlt) (by simp [hk])
    · rfl
    · exact absurd (hlow k' hlt) (by simp [hk'])

end Sys2Proof.Machine

namespace Sys2Proof

open Sys2Proof.Machine

/-! ### The five cases of a step -/

theorem step_of_faulted {s : State} (h : isFaulted s) : step s = .next s := by
  obtain ⟨c, info, h⟩ := h
  simp [step, h, stepFaulted]

theorem step_of_awaitingKey {s : State} {r : RegIx} (h : s.mode = .awaitingKey r) : step s = .next (awaitKey r s) := by
  simp [step, h, stepAwaiting]

theorem step_of_running {s : State} (h : s.mode = .running) : step s = stepRunning s := by
  simp [step, h]

/-- A fetch out of range (R194). -/
theorem step_of_fetch_fault {s : State} (h : s.mode = .running) (hpc : 0x0FFE < s.pc.toNat) :
    step s = .next (s.raiseFault .address (BitVec.ofNat 16 (max s.pc.toNat 0x1000))) := by
  rw [step_of_running h]
  exact withAccess_outOfRange s _ (by decide) (by omega)

/-- An illegal word (R75, R193). -/
theorem step_of_illegal {s : State} (h : s.mode = .running) (hpc : s.pc.toNat ≤ 0x0FFE)
    (hd : decodeWord s.fetched = none) : step s = .next (s.advance.raiseFault .illegalInstruction s.fetched) := by
  rw [step_of_running h, stepRunning, withAccess_inRange s _ (.inr (by omega)), hd]
  rfl

/-- The word at `pc` is run with `pc` advanced. -/
theorem step_of_runs {s : State} {i : Instr} (h : StepRuns s i) : step s = exec i s.advance := by
  obtain ⟨hmode, hpc, hd⟩ := h
  rw [step_of_running hmode, stepRunning, withAccess_inRange s _ (.inr (by omega)), hd]

/-- Every state is in one of the five cases. -/
theorem step_cases (s : State) :
    isFaulted s ∨ (∃ r, s.mode = .awaitingKey r) ∨ (s.mode = .running ∧ 0x0FFE < s.pc.toNat) ∨
    (s.mode = .running ∧ s.pc.toNat ≤ 0x0FFE ∧ decodeWord s.fetched = none) ∨ ∃ i, StepRuns s i := by
  cases hmode : s.mode with
  | faulted c info => exact .inl ⟨c, info, hmode⟩
  | awaitingKey r => exact .inr (.inl ⟨r, rfl⟩)
  | running =>
    by_cases hpc : s.pc.toNat ≤ 0x0FFE
    · cases hd : decodeWord s.fetched with
      | none => exact .inr (.inr (.inr (.inl ⟨rfl, hpc, rfl⟩)))
      | some i => exact .inr (.inr (.inr (.inr ⟨i, hmode, hpc, hd⟩)))
    · exact .inr (.inr (.inl ⟨rfl, by omega⟩))

/-! ### A step that runs no instruction -/

/-- The key wait, whether or not a key is pressed (45_timers_keys.md R162). -/
theorem awaitKey_within {w : Writes} {r : RegIx} (hr : r ∈ w.regs) (hmode : w.mode = true) (s : State) :
    AnswersWithin w s (.next (awaitKey r s)) := by
  unfold awaitKey
  split
  · exact .next (Frame.refl w s) rfl
  · exact .next (((Frame.refl w s).setReg hr _).setMode hmode _) rfl

/-- What a step may write that runs no instruction: the register of a key wait, the fetch advance and the mode. -/
def idleWrites : Writes := { regs := List.finRange 16, pc := true, mode := true }

theorem step_runs_or_idle (s : State) : (∃ i, StepRuns s i) ∨ AnswersWithin idleWrites s (step s) := by
  rcases step_cases s with h | ⟨r, h⟩ | ⟨h, hpc⟩ | ⟨h, hpc, hd⟩ | h
  · exact .inr (step_of_faulted h ▸ .next (Frame.refl _ s) rfl)
  · exact .inr (step_of_awaitingKey h ▸ awaitKey_within (List.mem_finRange r) rfl s)
  · exact .inr (step_of_fetch_fault h hpc ▸ .fault rfl s ..)
  · exact .inr (step_of_illegal h hpc hd ▸
      .next (((Frame.refl _ s).setPc rfl _).raiseFault rfl ..) (State.raiseFault_mem s.advance ..))
  · exact .inl h

/-- The frame of a step: that of the instruction it runs, or that of a step that runs none. -/
theorem step_frame {s t : State} (h : step s = .next t) :
    (∃ i, StepRuns s i ∧ Frame (writesOf i s.advance) s.advance t) ∨ Frame idleWrites s t := by
  rcases step_runs_or_idle s with ⟨i, hi⟩ | ⟨t', ht', hframe, -⟩
  · exact .inl ⟨i, hi, exec_frame ((step_of_runs hi).symm.trans h)⟩
  · exact .inr (next_unique ht' h ▸ hframe)

/-! ### The obligations about one step -/

/-- Settles O6: the two bytes at `pc` are the word fetched. -/
theorem stepRunsTheDecodedInstruction : Obligations.StepRunsTheDecodedInstruction := by
  intro s i hmode hpc hd
  have hword : decodeWord s.fetched = some i := by
    rw [decode] at hd
    split at hd
    case h_1 j hj =>
      cases hd
      exact hj
    case h_2 => cases hd
  exact ⟨(encodeOfDecodeIsTheWord _ i hword).1, step_of_runs ⟨hmode, hpc, hword⟩⟩

theorem not_isFaulted_of_running {s : State} (h : s.mode = .running) : ¬ isFaulted s := by
  rintro ⟨c, info, hf⟩
  cases h.symm.trans hf

/-- Settles O7: a fetch fault is raised before the advance, an illegal word after it. -/
theorem fetchAndDecodeFaultsAreTaken : Obligations.FetchAndDecodeFaultsAreTaken := by
  refine ⟨fun s h hpc => ⟨_, step_of_fetch_fault h hpc, State.raiseFault_taken (not_isFaulted_of_running h) ..⟩, ?_⟩
  rintro s _ h hpc rfl hd
  exact ⟨_, step_of_illegal h hpc hd, State.raiseFault_taken (s := s.advance) (not_isFaulted_of_running h) ..⟩

/-- Settles O8: the result of a step is read off the mode, which stays. -/
theorem faultedStepChangesNothing : Obligations.FaultedStepChangesNothing := fun s c info h =>
  ⟨step_of_faulted ⟨c, info, h⟩, by simp [stepResult, h]⟩

theorem awaitKey_of_no_key {s : State} (h : ∀ k, s.key k = false) (r : RegIx) : awaitKey r s = s := by
  simp [awaitKey, State.lowestKey_eq_none.mpr h]

theorem awaitKey_of_key {s : State} {k : Fin 16} (h : s.lowestKey = some k) (r : RegIx) :
    awaitKey r s = (s.setReg r (BitVec.ofNat 8 k.val)).setMode .running := by
  simp [awaitKey, h]

/-- Settles O10: the wait looks for the lowest pressed key and finds none, or this one. -/
theorem keyWaitTakesTheLowestPressedKey : Obligations.KeyWaitTakesTheLowestPressedKey := by
  intro s r h
  constructor
  · intro hnone
    exact ⟨by rw [step_of_awaitingKey h, awaitKey_of_no_key hnone], by simp [stepResult, h]⟩
  · intro k hk hlow
    refine ⟨(s.setReg r (BitVec.ofNat 8 k.val)).setMode .running, ?_, ?_, rfl, rfl,
      ((Frame.refl _ s).setReg List.mem_cons_self _).setMode rfl _⟩
    · rw [step_of_awaitingKey h, awaitKey_of_key (State.lowestKey_eq_some hk hlow)]
    · rw [State.setMode_reg, State.setReg_reg_same, BitVec.toNat_ofNat]
      omega

/-- Settles O11: an instruction answers within its list of writes; a step runs one or answers by itself. -/
theorem everyStepAnswersANextState : Obligations.EveryStepAnswersANextState := by
  have answers (i : Instr) (s : State) : ∃ t, exec i s = .next t := (exec_within i s).imp fun _ ht => ht.1
  refine ⟨answers, fun s => ?_⟩
  rcases step_runs_or_idle s with ⟨i, hi⟩ | h
  · exact step_of_runs hi ▸ answers i s.advance
  · exact h.imp fun _ ht => ht.1

/-- The word JP `pc` decodes to a jump to `pc`, where `pc` is below 4096. -/
theorem decodeWord_selfJump {pc : Word} (h : pc.toNat ≤ 0x0FFE) :
    ∃ nnn, decodeWord (0x1000#16 ||| pc) = some (.jp nnn) ∧ addrImm nnn = pc := by
  have hpc : (pc.setWidth 12).setWidth 16 = pc := by
    rw [← BitVec.toNat_inj, BitVec.toNat_setWidth, BitVec.toNat_setWidth]
    omega
  refine ⟨pc.setWidth 12, ?_, hpc⟩
  have hword := decodeWord_encodeA_jp (pc.setWidth 12)
  rwa [encodeA, hpc] at hword

/-- Settles O51: the jump writes to `pc` the address it was fetched from. -/
theorem endedRunStaysPut : Obligations.EndedRunStaysPut := by
  rintro s ⟨hmode, hpc, hfetched⟩
  obtain ⟨nnn, hd, haddr⟩ := decodeWord_selfJump hpc
  rw [step_of_runs ⟨hmode, hpc, hfetched ▸ hd⟩, exec_jp, haddr]
  rfl

end Sys2Proof
end

section
/-! PROOFS. The operations of the host (50_host_interface.md R170 to R181, 60_exceptions.md R200): what each of the
five beside `reset` and `step` may write, what `reset` leaves, and how misuse is reported. -/

namespace Sys2Proof.Machine

/-- Writing a key flag the value it has changes nothing. -/
theorem State.setKeyFlag_self {s : State} {k : Fin 16} {pressed : Bool} (h : s.key k = pressed) :
    s.setKeyFlag k pressed = s := by
  rw [← h, State.setKeyFlag, State.key, Vector.set_getElem_self]

end Sys2Proof.Machine

namespace Sys2Proof

open Sys2Proof.Machine

/-! ### `load`, `set_key` and the tick, case by case -/

theorem hostLoad_of_le {bytes : List Byte} (h : bytes.length ≤ 3584) (s : State) :
    hostLoad bytes s = (s.setMem (Memory.writeBytes s.mem 0x200 bytes), .ok) :=
  if_neg (Nat.not_lt.mpr h)

theorem hostLoad_of_gt {bytes : List Byte} (h : 3584 < bytes.length) (s : State) :
    hostLoad bytes s = misuse s .loadTooLarge (BitVec.ofNat 16 (min bytes.length 0xFFFF)) :=
  if_pos h

theorem hostSetKey_of_lt (k : Fin 16) (pressed : Bool) (s : State) :
    hostSetKey k.val pressed s = (s.setKeyFlag k pressed, .ok) :=
  dif_pos k.isLt

theorem hostSetKey_of_gt {index : Nat} (h : 15 < index) (pressed : Bool) (s : State) :
    hostSetKey index pressed s = misuse s .hostKeyIndex (BitVec.ofNat 16 index) :=
  dif_neg (by omega)

/-- A positive timer falls by one, and one at 0 stays (R200). -/
theorem tickDown_toNat (b : Byte) : (tickDown b).toNat = if 0 < b.toNat then b.toNat - 1 else 0 := by
  have := b.isLt
  have hpos : 0#8 < b ↔ 0 < b.toNat := BitVec.lt_def
  by_cases h : 0 < b.toNat
  · rw [tickDown, if_pos (hpos.mpr h), if_pos h, BitVec.toNat_sub, BitVec.toNat_ofNat]
    omega
  · rw [tickDown, if_neg (mt hpos.mp h), if_neg h]
    omega

theorem frame_tickTimers {w : Writes} (hdt : w.dt = true) (hst : w.st = true) (s : State) :
    Frame w s (tickTimers s) :=
  ((Frame.refl w s).setDt hdt _).setSt hst _

/-- The image lies below 4096 (R173). -/
theorem Frame.load {w : Writes} {bytes : List Byte} (h : bytes.length ≤ 3584) (hat : w.storeAt = 0x200)
    (hlen : w.storeLen = bytes.length) (s : State) :
    Frame w s (s.setMem (Memory.writeBytes s.mem 0x200 bytes)) :=
  (Frame.refl w s).setMem_writeBytes hat hlen (by omega)

/-! ### The obligations about one operation -/

/-- Settles O53: the image is short enough, and its bytes are read back where they were written. -/
theorem loadCopiesTheImage : Obligations.LoadCopiesTheImage := by
  intro bytes s h
  rw [hostLoad_of_le h]
  refine ⟨rfl, fun k hk => ?_, Frame.load h rfl rfl s⟩
  rw [State.setMem_mem, Memory.read_writeBytes_add hk s.mem (by omega), List.getD_eq_getElem _ _ hk]

/-- A misused operation reports its error, takes the fault unless the machine is faulted, and then keeps the record. -/
theorem misuse_spec (s : State) (c : FaultCause) (info : Word) :
    (misuse s c info).2 = .error c info ∧ (¬ isFaulted s → FaultTaken s (misuse s c info).1 c info) ∧
    (isFaulted s → (misuse s c info).1 = s) :=
  ⟨rfl, fun h => State.raiseFault_taken h c info, fun h => State.raiseFault_of_faulted h c info⟩

/-- Settles O54: both operations answer with the common misuse. -/
theorem hostMisuseIsReportedAndTerminal : Obligations.HostMisuseIsReportedAndTerminal :=
  ⟨fun _ s h => hostLoad_of_gt h s ▸ misuse_spec s _ _,
    fun _ pressed s h => hostSetKey_of_gt h pressed s ▸ misuse_spec s _ _⟩

/-- Settles O55: the index is in range, so one flag is written, whatever the mode. -/
theorem setKeyWritesOneFlag : Obligations.SetKeyWritesOneFlag := by
  intro k pressed s
  rw [hostSetKey_of_lt]
  exact ⟨rfl, State.setKeyFlag_key s k pressed, (Frame.refl _ s).setKeyFlag rfl k pressed, State.setKeyFlag_self⟩

/-- Settles O56: both timers are lowered alike, and the two writes are all. -/
theorem tickLowersPositiveTimers : Obligations.TickLowersPositiveTimers := fun s =>
  ⟨tickDown_toNat s.dt, tickDown_toNat s.st, frame_tickTimers rfl rfl s, fun _ => rfl⟩

/-! ### The start state (10_state.md R35) -/

theorem glyphTable_length : glyphTable.length = 80 := by decide

/-- Nothing is listed, so every address reads its reset contents. -/
theorem reset_isStartState : IsStartState State.reset where
  pc := rfl
  regs := State.reset_reg
  i := rfl
  slots := State.reset_slot
  sp := rfl
  timers := ⟨rfl, rfl⟩
  keys := State.reset_key
  display := State.reset_pixel
  glyphs a h := List.getD_eq_getElem glyphTable 0#8 h
  rest a h _ := List.getD_eq_default glyphTable 0#8 (by rwa [glyphTable_length])
  mode := rfl

/-- Of an earlier state `reset` keeps the draw counter alone, which no piece of the start state reads. -/
theorem hostReset_isStartState (s : State) : IsStartState (hostReset s) := { reset_isStartState with }

/-- Settles O52: `reset` does not read the state it is applied to, but for the draw counter. -/
theorem resetLeavesTheStartState : Obligations.ResetLeavesTheStartState :=
  ⟨reset_isStartState, glyphTable_length, fun s => ⟨_, rfl, hostReset_isStartState s, soundActive_hostReset s⟩⟩

/-! ### What the operations beside `reset` and `step` may write -/

/-- What an operation may write; `reset` and `step` have rules of their own, and their lists are not used. -/
def hostWrites : HostOp → Writes
  | .load bytes => { storeAt := 0x200, storeLen := bytes.length, mode := true }
  | .setKey _ _ => { keys := true, mode := true }
  | .tickTimers => { dt := true, st := true }
  | .readDisplay | .soundActive | .reset | .step => {}

theorem applyOp_within {op : HostOp} (hreset : op ≠ .reset) (hstep : op ≠ .step) (s : State) :
    AnswersWithin (hostWrites op) s (applyOp op s) := by
  cases op with
  | reset => exact absurd rfl hreset
  | step => exact absurd rfl hstep
  | readDisplay => exact .next (Frame.refl _ s) rfl
  | soundActive => exact .next (Frame.refl _ s) rfl
  | tickTimers => exact .next (frame_tickTimers rfl rfl s) rfl
  | load bytes =>
    rw [applyOp]
    by_cases h : bytes.length ≤ 3584
    · rw [hostLoad_of_le h]
      exact .store (Frame.load h rfl rfl s) rfl
    · rw [hostLoad_of_gt (by omega)]
      exact .fault rfl s ..
  | setKey index pressed =>
    rw [applyOp]
    by_cases h : index < 16
    · rw [hostSetKey_of_lt ⟨index, h⟩]
      exact .next ((Frame.refl _ s).setKeyFlag rfl _ _) rfl
    · rw [hostSetKey_of_gt (by omega)]
      exact .fault rfl s ..

theorem applyOp_frame {op : HostOp} {s t : State} (hreset : op ≠ .reset) (hstep : op ≠ .step)
    (h : applyOp op s = .next t) : Frame (hostWrites op) s t := by
  obtain ⟨t', ht', hframe, -⟩ := applyOp_within hreset hstep s
  exact next_unique ht' h ▸ hframe

/-- `load` and `set_key` keep a record, misused or not (R181). -/
theorem hostLoad_mode_of_faulted {s : State} (h : isFaulted s) (bytes : List Byte) :
    (hostLoad bytes s).1.mode = s.mode := by
  by_cases hlen : bytes.length ≤ 3584
  · rw [hostLoad_of_le hlen, State.setMem_mode]
  · rw [hostLoad_of_gt (by omega), misuse, State.raiseFault_of_faulted h]

theorem hostSetKey_mode_of_faulted {s : State} (h : isFaulted s) (index : Nat) (pressed : Bool) :
    (hostSetKey index pressed s).1.mode = s.mode := by
  by_cases hk : index < 16
  · rw [hostSetKey_of_lt ⟨index, hk⟩, State.setKeyFlag_mode]
  · rw [hostSetKey_of_gt (by omega), misuse, State.raiseFault_of_faulted h]

/-- No operation but `reset` changes the mode of a faulted machine. -/
theorem applyOp_mode_of_faulted {op : HostOp} {s t : State} (hs : isFaulted s) (hop : op ≠ .reset)
    (h : applyOp op s = .next t) : t.mode = s.mode := by
  cases op with
  | reset => exact absurd rfl hop
  | load bytes => exact Host.Outcome.next.inj h ▸ hostLoad_mode_of_faulted hs bytes
  | setKey index pressed => exact Host.Outcome.next.inj h ▸ hostSetKey_mode_of_faulted hs index pressed
  | readDisplay => exact Host.Outcome.next.inj h ▸ rfl
  | soundActive => exact Host.Outcome.next.inj h ▸ rfl
  | tickTimers => exact Host.Outcome.next.inj h ▸ rfl
  | step => exact next_unique (step_of_faulted hs) h ▸ rfl

/-- Settles O9: the record is the mode, which every operation but `reset` keeps. -/
theorem faultRecordIsKeptUntilReset : Obligations.FaultRecordIsKeptUntilReset :=
  ⟨fun _ _ _ c info hs hop h => (applyOp_mode_of_faulted ⟨c, info, hs⟩ hop h).trans hs, fun _ => ⟨_, rfl, rfl⟩⟩

end Sys2Proof
end

section
/-! PROOFS. Which operations write a piece of state (10_state.md R25 to R27, 20_memory.md R55, 44_display.md R153): read
off the frames of the instructions, of a step and of the other operations. -/

namespace Sys2Proof

open Sys2Proof.Machine

/-- Settles O42: no list of writes holds the keys. -/
theorem noInstructionWritesKeys : Obligations.NoInstructionWritesKeys := by
  refine ⟨fun i s t h => (exec_frame h).keys (writesOf_keys i s), fun s t h => ?_⟩
  rcases step_frame h with ⟨i, -, hf⟩ | hf
  · exact hf.keys (writesOf_keys i _)
  · exact hf.keys rfl

/-- Settles O43: of the lists of writes only those of CLS and DRW hold the display. -/
theorem onlyClsDrwAndResetChangeTheDisplay : Obligations.OnlyClsDrwAndResetChangeTheDisplay := by
  refine ⟨fun i s t h hname => (exec_frame h).display ((writesOf_display _ s).mpr hname), fun s t h hname => ?_, ?_⟩
  · rcases step_frame h with ⟨i, hi, hf⟩ | hf
    · exact hf.display ((writesOf_display _ _).mpr (hname i hi))
    · exact hf.display rfl
  · intro op s t hreset hstep h
    exact (applyOp_frame hreset hstep h).display (by cases op <;> rfl)

/-- An operation that stores no byte changes none. -/
theorem Frame.mem_of_storeLen {w : Writes} {s t : State} (h : Frame w s t) (hlen : w.storeLen = 0) (a : Nat) :
    Memory.read t.mem a = Memory.read s.mem a :=
  h.mem a (by omega)

/-- Settles O44: of the lists of writes only those of LD_B, LD_MEM_VX and `load` hold a stored byte. -/
theorem onlyStoresWriteMemory : Obligations.OnlyStoresWriteMemory := by
  refine ⟨fun i s t h hname => (exec_frame h).mem_of_storeLen ((writesOf_storeLen _ s).mpr hname),
    fun s t h hname => ?_, ?_⟩
  · rcases step_frame h with ⟨i, hi, hf⟩ | hf
    · exact hf.mem_of_storeLen ((writesOf_storeLen _ _).mpr (hname i hi))
    · exact hf.mem_of_storeLen rfl
  · intro op s t hreset hstep hload h
    refine (applyOp_frame hreset hstep h).mem_of_storeLen ?_
    cases op with
    | load bytes => exact absurd rfl (hload bytes)
    | _ => rfl

/-- Settles O45: of the lists of writes only those of CALL and RET hold the stack, and each timer is in the list of its
own writer and of the tick. -/
theorem stackAndTimersHaveTheirOwnWriters : Obligations.StackAndTimersHaveTheirOwnWriters := by
  refine ⟨fun i s t h => ?_, fun s t h => ?_, fun op s t hreset hstep h => ?_⟩
  · have hf := exec_frame h
    exact ⟨fun hname => hf.stack ((writesOf_stack _ s).mpr hname), fun hname => hf.dt ((writesOf_dt _ s).mpr hname),
      fun hname => hf.st ((writesOf_st _ s).mpr hname)⟩
  · rcases step_frame h with ⟨i, hi, hf⟩ | hf
    · exact ⟨fun hname => hf.stack ((writesOf_stack _ _).mpr (hname i hi)),
        fun hname => hf.dt ((writesOf_dt _ _).mpr (hname i hi)),
        fun hname => hf.st ((writesOf_st _ _).mpr (hname i hi))⟩
    · exact ⟨fun _ => hf.stack rfl, fun _ => hf.dt rfl, fun _ => hf.st rfl⟩
  · have hf := applyOp_frame hreset hstep h
    refine ⟨hf.stack (by cases op <;> rfl), fun htick => ?_⟩
    cases op with
    | tickTimers => exact absurd rfl htick
    | _ => exact ⟨hf.dt rfl, hf.st rfl⟩

end Sys2Proof
end

section
/-! PROOFS. The invariant (10_state.md R23, 40_control_flow.md R101): after a fetch `pc` is at most 0x1000, so a return
address is at most 0x1000, a skip reaches at most 0x1002, and the farthest target is that of JP_V0, 0xFFF + 0xFF. -/

namespace Sys2Proof

open Sys2Proof.Machine

/-! ### What keeps the invariant -/

section Keeps

variable {w : Writes} {s t : State} {a : Answer}

theorem StateInv.pc_le (hs : StateInv s) : s.pc.toNat ≤ 0x10FE := hs.2.1

/-- An answer that leaves the stack alone and keeps memory canonical, with `pc` within its bound. -/
theorem StateInv.of_pc_le (hs : StateInv s) (hstack : w.stack = false) (ha : AnswersWithin w s a) (h : a = .next t)
    (hpc : t.pc.toNat ≤ 0x10FE) : StateInv t := by
  obtain ⟨hmem, -, hslot⟩ := hs
  obtain ⟨t', ht', hframe, hwf⟩ := ha
  obtain rfl : t' = t := next_unique ht' h
  exact ⟨hwf hmem, hpc, fun k => (hframe.stack hstack).2 k ▸ hslot k⟩

/-- An answer that leaves `pc` alone too. -/
theorem StateInv.of_within (hs : StateInv s) (hpc : w.pc = false) (hstack : w.stack = false)
    (ha : AnswersWithin w s a) (h : a = .next t) : StateInv t := by
  refine hs.of_pc_le hstack ha h ?_
  obtain ⟨t', ht', hframe, -⟩ := ha
  obtain rfl : t' = t := next_unique ht' h
  exact hframe.pc hpc ▸ hs.pc_le

theorem StateInv.raiseFault (hs : StateInv s) (c : FaultCause) (info : Word) : StateInv (s.raiseFault c info) :=
  hs.of_within rfl rfl (.fault (w := { mode := true }) rfl s c info) rfl

/-! ### After an instruction -/

theorem addrImm_le (nnn : Addr12) : (addrImm nnn).toNat ≤ 0x0FFF := by
  have := nnn.isLt
  rw [addrImm_toNat]
  omega

theorem pc_le_of_setPc {p : Word} (hp : p.toNat ≤ 0x10FE) (ha : a = .next (s.setPc p)) (h : a = .next t) :
    t.pc.toNat ≤ 0x10FE :=
  next_unique ha h ▸ hp

/-- A skip, whichever way the test goes. -/
theorem pc_le_of_skip {p q : Word} {c : Prop} [Decidable c] (hp : p.toNat ≤ 0x10FE) (hq : q.toNat ≤ 0x10FE)
    (ha : a = .next (s.setPc (if c then p else q))) (h : a = .next t) : t.pc.toNat ≤ 0x10FE := by
  refine pc_le_of_setPc ?_ ha h
  split
  · exact hp
  · exact hq

theorem pc_add_two_le (hpc : s.pc.toNat ≤ 0x1000) : (s.pc + 2#16).toNat ≤ 0x10FE := by
  rw [BitVec.toNat_add, BitVec.toNat_ofNat]
  omega

/-- CALL pushes the post-fetch `pc`, which is at most 0x1000, or takes a fault. -/
theorem exec_call_keeps_inv (hs : StateInv s) (hpc : s.pc.toNat ≤ 0x1000) {nnn : Addr12}
    (h : exec (.call nnn) s = .next t) : StateInv t := by
  by_cases hsp : s.sp.val < 16
  · obtain ⟨u, hu, -, hslot, -⟩ := State.push_spec (w := s.pc) hsp
    obtain rfl : u.setPc (addrImm nnn) = t := next_unique (exec_call_of_push hu nnn) h
    obtain ⟨hmem, -, hle⟩ := hs
    refine ⟨(State.push_mem hu).symm ▸ hmem, (addrImm_le nnn).trans (by decide), fun k => ?_⟩
    rw [State.setPc_slot, hslot]
    split
    · exact hpc
    · exact hle k
  · obtain rfl := next_unique (exec_call_full (by omega) nnn) h
    exact hs.raiseFault ..

/-- RET takes `pc` from a slot, which is at most 0x1000, or takes a fault. -/
theorem exec_ret_keeps_inv (hs : StateInv s) (h : exec .ret s = .next t) : StateInv t := by
  by_cases hsp : s.sp.val = 0
  · obtain rfl := next_unique (exec_ret_empty hsp) h
    exact hs.raiseFault ..
  · obtain ⟨k, u, -, hu, -, hslot, -⟩ := State.pop_spec hsp
    obtain rfl : u.setPc (s.slot k) = t := next_unique (exec_ret_of_pop hu) h
    obtain ⟨hmem, -, hle⟩ := hs
    exact ⟨(State.pop_mem hu).symm ▸ hmem, (hle k).trans (by decide), fun j => (hslot j).symm ▸ hle j⟩

theorem skipOnKey_keeps_inv (hs : StateInv s) (hpc : s.pc.toNat ≤ 0x1000) {x : RegIx} {want : Bool}
    (h : skipOnKey x want s = .next t) : StateInv t := by
  by_cases hx : (s.reg x).toNat < 16
  · exact hs.of_pc_le rfl (skipOnKey_within (w := { pc := true, mode := true }) rfl rfl x want) h
      (pc_le_of_skip (pc_add_two_le hpc) hs.pc_le (skipOnKey_of_key (k := ⟨_, hx⟩) rfl want) h)
  · obtain rfl := next_unique (skipOnKey_of_gt (by omega) want) h
    exact hs.raiseFault ..

/-- Every instruction keeps the invariant from a state whose `pc` a fetch has just advanced. -/
theorem exec_keeps_inv (hs : StateInv s) (hpc : s.pc.toNat ≤ 0x1000) {i : Instr} (h : exec i s = .next t) :
    StateInv t := by
  have within := exec_within i s
  have hskip : (s.pc + 2#16).toNat ≤ 0x10FE := pc_add_two_le hpc
  have hstay : s.pc.toNat ≤ 0x10FE := hs.pc_le
  cases i with
  | call nnn => exact exec_call_keeps_inv hs hpc h
  | ret => exact exec_ret_keeps_inv hs h
  | jp nnn => exact hs.of_pc_le rfl within h (pc_le_of_setPc ((addrImm_le nnn).trans (by decide)) (exec_jp nnn s) h)
  | jpV0 nnn =>
    refine hs.of_pc_le rfl within h (pc_le_of_setPc ?_ (exec_jpV0 nnn s) h)
    have := nnn.isLt
    have := (s.reg 0).isLt
    rw [addrImm_add_zext16_toNat]
    omega
  | seImm x nn => exact hs.of_pc_le rfl within h (pc_le_of_skip hskip hstay (exec_seImm x nn s) h)
  | sneImm x nn => exact hs.of_pc_le rfl within h (pc_le_of_skip hstay hskip (exec_sneImm x nn s) h)
  | seReg x y => exact hs.of_pc_le rfl within h (pc_le_of_skip hskip hstay (exec_seReg x y s) h)
  | sneReg x y => exact hs.of_pc_le rfl within h (pc_le_of_skip hstay hskip (exec_sneReg x y s) h)
  | skp x => exact skipOnKey_keeps_inv hs hpc h
  | sknp x => exact skipOnKey_keeps_inv hs hpc h
  | _ => exact hs.of_within rfl rfl within h

/-! ### After a step, after an operation, after a run -/

/-- The fetch advance, where the fetch is in range. -/
theorem advance_pc_le (hpc : s.pc.toNat ≤ 0x0FFE) : s.advance.pc.toNat ≤ 0x1000 := by
  rw [State.advance_pc, BitVec.toNat_add, BitVec.toNat_ofNat]
  omega

theorem StateInv.advance (hs : StateInv s) (hpc : s.pc.toNat ≤ 0x0FFE) : StateInv s.advance := by
  obtain ⟨hmem, -, hslot⟩ := hs
  exact ⟨hmem, (advance_pc_le hpc).trans (by decide), hslot⟩

theorem step_keeps_inv (hs : StateInv s) (h : step s = .next t) : StateInv t := by
  rcases step_cases s with hf | ⟨r, hmode⟩ | ⟨hmode, hpc⟩ | ⟨hmode, hpc, hd⟩ | ⟨i, hi⟩
  · obtain rfl := next_unique (step_of_faulted hf) h
    exact hs
  · exact hs.of_within rfl rfl (awaitKey_within (w := { regs := [r], mode := true }) List.mem_cons_self rfl s)
      ((step_of_awaitingKey hmode).symm.trans h)
  · obtain rfl := next_unique (step_of_fetch_fault hmode hpc) h
    exact hs.raiseFault ..
  · obtain rfl := next_unique (step_of_illegal hmode hpc hd) h
    exact (hs.advance hpc).raiseFault ..
  · have ⟨_, hpc, _⟩ := hi
    exact exec_keeps_inv (hs.advance hpc) (advance_pc_le hpc) ((step_of_runs hi).symm.trans h)

theorem reset_stateInv : StateInv State.reset :=
  ⟨Memory.wf_reset, by decide, fun k => by rw [State.reset_slot]; decide⟩

/-- `reset` leaves the start state but for the draw counter, which the invariant does not read. -/
theorem hostReset_stateInv (s : State) : StateInv (hostReset s) := reset_stateInv

theorem applyOp_keeps_inv (hs : StateInv s) {op : HostOp} (h : applyOp op s = .next t) : StateInv t := by
  by_cases hstep : op = .step
  · subst hstep
    exact step_keeps_inv hs h
  by_cases hreset : op = .reset
  · subst hreset
    exact Host.Outcome.next.inj h ▸ hostReset_stateInv s
  · exact hs.of_within (by cases op <;> rfl) (by cases op <;> rfl) (applyOp_within hreset hstep s) h

end Keeps

/-! ### The obligations -/

/-- Settles O48: nothing is listed in memory, `pc` is 0x200 and every slot 0. -/
theorem resetMeetsTheInvariant : Obligations.ResetMeetsTheInvariant := reset_stateInv

/-- Settles O49: a step keeps the invariant in each of its five cases. -/
theorem stepKeepsTheInvariant : Obligations.StepKeepsTheInvariant := fun _ _ => step_keeps_inv

/-- Settles O50: by induction on the operations, each of which keeps the invariant. -/
theorem everyRunOfOperationsKeepsTheInvariant : Obligations.EveryRunOfOperationsKeepsTheInvariant := by
  intro ops
  induction ops with
  | nil =>
    intro s t hs h
    exact Host.Outcome.next.inj h ▸ hs
  | cons op ops ih =>
    intro s t hs h
    rw [runOps] at h
    split at h
    case h_1 u hu => exact ih u t (applyOp_keeps_inv hs hu) h
    case h_2 => cases h
    case h_3 => cases h

end Sys2Proof
end
